-- ==== Sys2Proof/Word.lean ====
section
/-! DEFINITION. The widths of the chippy CHIP-8 core (00_scope.md R5, R81). -/

namespace Sys2Proof

/-- A byte: V_WIDTH, DT, ST, a memory cell, the field kk. -/
abbrev Byte := BitVec 8

/-- An instruction word, a PC value, a stack entry. -/
abbrev Word := BitVec 16

/-- A 12-bit address: the index register I and the field nnn. -/
abbrev Addr := BitVec 12

/-- The index of one of the sixteen general registers, the fields x and y (R20, R81). -/
abbrev Reg := Fin 16

/-- VF, the register that doubles as the flag (10_state.md R21). -/
abbrev VF : Reg := 15

/-- The index of one of the sixteen hex keys (10_state.md R34). -/
abbrev Key := Fin 16

end Sys2Proof
end

