-- ==== Sys2Proof/Syntax.lean ====
section
/-! DEFINITION. The 34 instructions of 30_encoding.md R84, one constructor per row of the opcode table in the
table's order, and what a word decodes to: one of them or Unknown (R85, R87).
The operand types carry the operand ranges of R81 and R83: every value of every field is legal. -/

namespace Sys2Proof

/-- The instruction set. x and y are register indices, n a byte count 0 to 15, kk a byte, nnn a 12-bit address. -/
inductive Instr where
  /-- 00E0 CLS -/
  | cls
  /-- 00EE RET -/
  | ret
  /-- 1nnn JP nnn -/
  | jp (nnn : Addr)
  /-- 2nnn CALL nnn -/
  | call (nnn : Addr)
  /-- 3xkk SE Vx, kk -/
  | seByte (x : Reg) (kk : Byte)
  /-- 4xkk SNE Vx, kk -/
  | sneByte (x : Reg) (kk : Byte)
  /-- 5xy0 SE Vx, Vy -/
  | seReg (x y : Reg)
  /-- 6xkk LD Vx, kk -/
  | ldByte (x : Reg) (kk : Byte)
  /-- 7xkk ADD Vx, kk -/
  | addByte (x : Reg) (kk : Byte)
  /-- 8xy0 LD Vx, Vy -/
  | ldReg (x y : Reg)
  /-- 8xy1 OR Vx, Vy -/
  | orReg (x y : Reg)
  /-- 8xy2 AND Vx, Vy -/
  | andReg (x y : Reg)
  /-- 8xy3 XOR Vx, Vy -/
  | xorReg (x y : Reg)
  /-- 8xy4 ADD Vx, Vy -/
  | addReg (x y : Reg)
  /-- 8xy5 SUB Vx, Vy -/
  | subReg (x y : Reg)
  /-- 8xy6 SHR Vx, Vy -/
  | shr (x y : Reg)
  /-- 8xy7 SUBN Vx, Vy -/
  | subn (x y : Reg)
  /-- 8xyE SHL Vx, Vy -/
  | shl (x y : Reg)
  /-- 9xy0 SNE Vx, Vy -/
  | sneReg (x y : Reg)
  /-- Annn LD I, nnn -/
  | ldI (nnn : Addr)
  /-- Bnnn JP V0, nnn -/
  | jpV0 (nnn : Addr)
  /-- Cxkk RND Vx, kk -/
  | rnd (x : Reg) (kk : Byte)
  /-- Dxyn DRW Vx, Vy, n -/
  | drw (x y : Reg) (n : Fin 16)
  /-- Ex9E SKP Vx -/
  | skp (x : Reg)
  /-- ExA1 SKNP Vx -/
  | sknp (x : Reg)
  /-- Fx07 LD Vx, DT -/
  | ldVxDT (x : Reg)
  /-- Fx0A LD Vx, K -/
  | ldVxK (x : Reg)
  /-- Fx15 LD DT, Vx -/
  | ldDTVx (x : Reg)
  /-- Fx18 LD ST, Vx -/
  | ldSTVx (x : Reg)
  /-- Fx1E ADD I, Vx -/
  | addI (x : Reg)
  /-- Fx29 LD F, Vx -/
  | ldF (x : Reg)
  /-- Fx33 LD B, Vx -/
  | ldB (x : Reg)
  /-- Fx55 LD [I], Vx -/
  | storeRegs (x : Reg)
  /-- Fx65 LD Vx, [I] -/
  | loadRegs (x : Reg)
  deriving DecidableEq, Repr

/-- What a word decodes to (30_encoding.md R87, 40_cycle.md R105): an instruction, or the explicit Unknown
variant that carries the word. -/
inductive Decoded where
  | instr (i : Instr)
  | unknown (w : Word)
  deriving DecidableEq, Repr

end Sys2Proof
end

