-- ==== Sys2Proof/WellFormed.lean ====
section
/-! DEFINITION. The opcode map of 30_encoding.md R84 as data, and the check of a decoded term.
An instruction has no ill-formed term: its operand types carry the ranges of R81, and R83 makes every value in
them legal. A Decoded term is ill-formed when it calls a word Unknown that matches a row of the map (R85). -/

namespace Sys2Proof

/-- One row of the opcode map: a word matches it when its bits under `mask` are `code` (R84). -/
structure OpRow where
  pattern : String
  code : Word
  mask : Word
  deriving DecidableEq, Repr

/-- Rows 1 to 9 of R84: families 0 to 7. -/
def rowsFlowAndBytes : List OpRow :=
  [⟨"00E0", 0x00E0, 0xFFFF⟩,
   ⟨"00EE", 0x00EE, 0xFFFF⟩,
   ⟨"1nnn", 0x1000, 0xF000⟩,
   ⟨"2nnn", 0x2000, 0xF000⟩,
   ⟨"3xkk", 0x3000, 0xF000⟩,
   ⟨"4xkk", 0x4000, 0xF000⟩,
   ⟨"5xy0", 0x5000, 0xF00F⟩,
   ⟨"6xkk", 0x6000, 0xF000⟩,
   ⟨"7xkk", 0x7000, 0xF000⟩]

/-- Rows 10 to 19 of R84: families 8 and 9. -/
def rowsRegisters : List OpRow :=
  [⟨"8xy0", 0x8000, 0xF00F⟩,
   ⟨"8xy1", 0x8001, 0xF00F⟩,
   ⟨"8xy2", 0x8002, 0xF00F⟩,
   ⟨"8xy3", 0x8003, 0xF00F⟩,
   ⟨"8xy4", 0x8004, 0xF00F⟩,
   ⟨"8xy5", 0x8005, 0xF00F⟩,
   ⟨"8xy6", 0x8006, 0xF00F⟩,
   ⟨"8xy7", 0x8007, 0xF00F⟩,
   ⟨"8xyE", 0x800E, 0xF00F⟩,
   ⟨"9xy0", 0x9000, 0xF00F⟩]

/-- Rows 20 to 25 of R84: families A to E. -/
def rowsIndexToKeys : List OpRow :=
  [⟨"Annn", 0xA000, 0xF000⟩,
   ⟨"Bnnn", 0xB000, 0xF000⟩,
   ⟨"Cxkk", 0xC000, 0xF000⟩,
   ⟨"Dxyn", 0xD000, 0xF000⟩,
   ⟨"Ex9E", 0xE09E, 0xF0FF⟩,
   ⟨"ExA1", 0xE0A1, 0xF0FF⟩]

/-- Rows 26 to 34 of R84: family F. -/
def rowsMisc : List OpRow :=
  [⟨"Fx07", 0xF007, 0xF0FF⟩,
   ⟨"Fx0A", 0xF00A, 0xF0FF⟩,
   ⟨"Fx15", 0xF015, 0xF0FF⟩,
   ⟨"Fx18", 0xF018, 0xF0FF⟩,
   ⟨"Fx1E", 0xF01E, 0xF0FF⟩,
   ⟨"Fx29", 0xF029, 0xF0FF⟩,
   ⟨"Fx33", 0xF033, 0xF0FF⟩,
   ⟨"Fx55", 0xF055, 0xF0FF⟩,
   ⟨"Fx65", 0xF065, 0xF0FF⟩]

/-- The 34 rows of R84, in its order. -/
def opcodeRows : List OpRow := rowsFlowAndBytes ++ rowsRegisters ++ rowsIndexToKeys ++ rowsMisc

/-- R84: "a word matches a row when (w & mask) == match". -/
def OpRow.covers (r : OpRow) (w : Word) : Bool := w &&& r.mask == r.code

/-- The word matches some row, so it is an instruction and not Unknown (R85). -/
def knownWord (w : Word) : Bool := opcodeRows.any (·.covers w)

/-- A decoded term is well-formed unless it calls an instruction's word Unknown. -/
def Decoded.wf : Decoded → Bool
  | .instr _ => true
  | .unknown w => !knownWord w

end Sys2Proof
end

