-- ==== Sys2Proof/Decode.lean ====
section
/-! DEFINITION. The decoder (30_encoding.md R80 to R87), total on any bytes, and after it the encoder. -/

namespace Sys2Proof

/-! ## Fields (R81) -/

/-- family = w[15:12] -/
def fieldFamily (w : Word) : Nat := w.toNat / 4096

/-- x = w[11:8] -/
def fieldX (w : Word) : Reg := Fin.ofNat 16 (w.toNat / 256)

/-- y = w[7:4] -/
def fieldY (w : Word) : Reg := Fin.ofNat 16 (w.toNat / 16)

/-- n = w[3:0] -/
def fieldN (w : Word) : Fin 16 := Fin.ofNat 16 w.toNat

/-- kk = w[7:0] -/
def fieldKk (w : Word) : Byte := w.setWidth 8

/-- nnn = w[11:0] -/
def fieldNnn (w : Word) : Addr := w.setWidth 12

/-! ## The decoder -/

/-- Family 0: only the exact words 00E0 and 00EE are instructions (R85, D20). -/
def decodeFamily0 (w : Word) : Decoded :=
  match w.toNat with
  | 0x00E0 => .instr .cls
  | 0x00EE => .instr .ret
  | _ => .unknown w

/-- Family 5: the sub-opcode w[3:0] must be 0 (R85, D34). -/
def decodeFamily5 (w : Word) : Decoded :=
  match (fieldN w).val with
  | 0x0 => .instr (.seReg (fieldX w) (fieldY w))
  | _ => .unknown w

/-- Family 8, by the sub-opcode w[3:0]. -/
def decodeFamily8 (w : Word) : Decoded :=
  match (fieldN w).val with
  | 0x0 => .instr (.ldReg (fieldX w) (fieldY w))
  | 0x1 => .instr (.orReg (fieldX w) (fieldY w))
  | 0x2 => .instr (.andReg (fieldX w) (fieldY w))
  | 0x3 => .instr (.xorReg (fieldX w) (fieldY w))
  | 0x4 => .instr (.addReg (fieldX w) (fieldY w))
  | 0x5 => .instr (.subReg (fieldX w) (fieldY w))
  | 0x6 => .instr (.shr (fieldX w) (fieldY w))
  | 0x7 => .instr (.subn (fieldX w) (fieldY w))
  | 0xE => .instr (.shl (fieldX w) (fieldY w))
  | _ => .unknown w

/-- Family 9: the sub-opcode w[3:0] must be 0 (R85, D34). -/
def decodeFamily9 (w : Word) : Decoded :=
  match (fieldN w).val with
  | 0x0 => .instr (.sneReg (fieldX w) (fieldY w))
  | _ => .unknown w

/-- Family E, by the sub-opcode w[7:0]. -/
def decodeFamilyE (w : Word) : Decoded :=
  match (fieldKk w).toNat with
  | 0x9E => .instr (.skp (fieldX w))
  | 0xA1 => .instr (.sknp (fieldX w))
  | _ => .unknown w

/-- Family F, by the sub-opcode w[7:0]. -/
def decodeFamilyF (w : Word) : Decoded :=
  match (fieldKk w).toNat with
  | 0x07 => .instr (.ldVxDT (fieldX w))
  | 0x0A => .instr (.ldVxK (fieldX w))
  | 0x15 => .instr (.ldDTVx (fieldX w))
  | 0x18 => .instr (.ldSTVx (fieldX w))
  | 0x1E => .instr (.addI (fieldX w))
  | 0x29 => .instr (.ldF (fieldX w))
  | 0x33 => .instr (.ldB (fieldX w))
  | 0x55 => .instr (.storeRegs (fieldX w))
  | 0x65 => .instr (.loadRegs (fieldX w))
  | _ => .unknown w

/-- R84, R87: the pure, total function from words to the 34 instructions and Unknown. The last arm is not
reached: a family is below 16. -/
def decodeWord (w : Word) : Decoded :=
  match fieldFamily w with
  | 0x0 => decodeFamily0 w
  | 0x1 => .instr (.jp (fieldNnn w))
  | 0x2 => .instr (.call (fieldNnn w))
  | 0x3 => .instr (.seByte (fieldX w) (fieldKk w))
  | 0x4 => .instr (.sneByte (fieldX w) (fieldKk w))
  | 0x5 => decodeFamily5 w
  | 0x6 => .instr (.ldByte (fieldX w) (fieldKk w))
  | 0x7 => .instr (.addByte (fieldX w) (fieldKk w))
  | 0x8 => decodeFamily8 w
  | 0x9 => decodeFamily9 w
  | 0xA => .instr (.ldI (fieldNnn w))
  | 0xB => .instr (.jpV0 (fieldNnn w))
  | 0xC => .instr (.rnd (fieldX w) (fieldKk w))
  | 0xD => .instr (.drw (fieldX w) (fieldY w) (fieldN w))
  | 0xE => decodeFamilyE w
  | 0xF => decodeFamilyF w
  | _ => .unknown w

/-- R54, R103: the word whose more significant byte is `hi`, the byte at the lower address. -/
def wordOfBytes (hi lo : Byte) : Word := hi ++ lo

/-- The byte of a word that lies at the lower address (R54). -/
def highByte (w : Word) : Byte := BitVec.ofNat 8 (w.toNat / 256)

/-- The byte of a word that lies at the higher address (R54). -/
def lowByte (w : Word) : Byte := w.setWidth 8

/-- Why a list of bytes holds no instruction word. -/
inductive DecodeError where
  /-- Fewer than the two bytes every instruction word has (R80). -/
  | truncated
  deriving DecidableEq, Repr

/-- The decoder on bytes: it always consumes exactly two (R80) and leaves the rest. -/
def decodeBytes : List Byte → Except DecodeError (Decoded × List Byte)
  | hi :: lo :: rest => .ok (decodeWord (wordOfBytes hi lo), rest)
  | _ => .error .truncated

/-! ## The encoder (R82, R84) -/

/-- Format A: `ffff nnnn nnnn nnnn`. -/
def formatA (code : Nat) (nnn : Addr) : Word := BitVec.ofNat 16 (code + nnn.toNat)

/-- Format XK: `ffff xxxx kkkk kkkk`. -/
def formatXK (code : Nat) (x : Reg) (kk : Byte) : Word := BitVec.ofNat 16 (code + 256 * x.val + kk.toNat)

/-- Format XY: `ffff xxxx yyyy ssss`. -/
def formatXY (code : Nat) (x y : Reg) : Word := BitVec.ofNat 16 (code + 256 * x.val + 16 * y.val)

/-- Format XYN: `ffff xxxx yyyy nnnn`. -/
def formatXYN (code : Nat) (x y : Reg) (n : Fin 16) : Word :=
  BitVec.ofNat 16 (code + 256 * x.val + 16 * y.val + n.val)

/-- Format X: `ffff xxxx ssss ssss`. -/
def formatX (code : Nat) (x : Reg) : Word := BitVec.ofNat 16 (code + 256 * x.val)

/-- The word of an instruction: its row's fixed bits with the operands in their fields. -/
def encode : Instr → Word
  | .cls => 0x00E0
  | .ret => 0x00EE
  | .jp nnn => formatA 0x1000 nnn
  | .call nnn => formatA 0x2000 nnn
  | .seByte x kk => formatXK 0x3000 x kk
  | .sneByte x kk => formatXK 0x4000 x kk
  | .seReg x y => formatXY 0x5000 x y
  | .ldByte x kk => formatXK 0x6000 x kk
  | .addByte x kk => formatXK 0x7000 x kk
  | .ldReg x y => formatXY 0x8000 x y
  | .orReg x y => formatXY 0x8001 x y
  | .andReg x y => formatXY 0x8002 x y
  | .xorReg x y => formatXY 0x8003 x y
  | .addReg x y => formatXY 0x8004 x y
  | .subReg x y => formatXY 0x8005 x y
  | .shr x y => formatXY 0x8006 x y
  | .subn x y => formatXY 0x8007 x y
  | .shl x y => formatXY 0x800E x y
  | .sneReg x y => formatXY 0x9000 x y
  | .ldI nnn => formatA 0xA000 nnn
  | .jpV0 nnn => formatA 0xB000 nnn
  | .rnd x kk => formatXK 0xC000 x kk
  | .drw x y n => formatXYN 0xD000 x y n
  | .skp x => formatX 0xE09E x
  | .sknp x => formatX 0xE0A1 x
  | .ldVxDT x => formatX 0xF007 x
  | .ldVxK x => formatX 0xF00A x
  | .ldDTVx x => formatX 0xF015 x
  | .ldSTVx x => formatX 0xF018 x
  | .addI x => formatX 0xF01E x
  | .ldF x => formatX 0xF029 x
  | .ldB x => formatX 0xF033 x
  | .storeRegs x => formatX 0xF055 x
  | .loadRegs x => formatX 0xF065 x

/-- The two bytes of an instruction in address order, most significant first (R54, R80). -/
def encodeBytes (i : Instr) : List Byte := [highByte (encode i), lowByte (encode i)]

/-! ## The decoder at a table word -/

/-- The instruction the decoder reads from a word given as the opcode table numbers its bits (bit 0 the least
significant of the one word an instruction has): laid out as the hardware stores it, more significant byte first,
and given to `decodeBytes`. None where the word is Unknown. -/
def decodeTableWord (nbits w : Nat) : Option Instr :=
  let word : Word := BitVec.ofNat 16 (w % 2 ^ nbits)
  match decodeBytes [highByte word, lowByte word] with
  | .ok (.instr i, _) => some i
  | .ok (.unknown _, _) => none
  | .error _ => none

end Sys2Proof
end

