-- ==== Sys2Proof/Config.lean ====
section
/-! DEFINITION. What an implementation of the core fixes (00_scope.md R6) and the values the spec leaves free.
"A model takes each as an argument": a Config is a field of State that no step changes (log entry 2). -/

namespace Sys2Proof

/-- SHIFT_SOURCE: the operand SHR and SHL shift (R6, D9). -/
inductive ShiftSource where
  | vx
  | vy
  deriving DecidableEq, Repr

/-- ADDI_VF: whether Fx1E writes an overflow flag (R6, D6). -/
inductive AddIFlag where
  | none
  | overflow
  deriving DecidableEq, Repr

/-- FONT_DIGIT_POLICY: how Fx29 takes a digit above 0xF (R6, D7). -/
inductive FontDigitPolicy where
  | lowNibble
  | full
  deriving DecidableEq, Repr

/-- FONT_WRITE_POLICY: what a store into the font table does (R6, D11). -/
inductive FontWritePolicy where
  | fault
  | allow
  deriving DecidableEq, Repr

/-- KEY_INDEX_POLICY: what a test of a key above 0xF answers (R6, D12). -/
inductive KeyIndexPolicy where
  | notPressed
  | lowNibble
  | fault
  deriving DecidableEq, Repr

/-- FONT_TABLE: 16 glyphs of 5 bytes, glyph d at address 5*d (R5, 20_memory.md R53). -/
abbrev FontTable := Vector (Vector Byte 5) 16

/-- A rate of num / den per second: positive, and not only a whole number (R6: "any positive rate"; log entry 4). -/
structure Rate where
  num : ℕ+
  den : ℕ+
  deriving DecidableEq, Repr, Inhabited

/-- The implementation parameters of R6. -/
structure Config where
  shiftSource : ShiftSource
  addiVf : AddIFlag
  fontDigit : FontDigitPolicy
  fontWrite : FontWritePolicy
  keyIndex : KeyIndexPolicy
  fontTable : FontTable
  /-- CPU_HZ in cycles per second; only the timed refinement of 60_exceptions.md R212 reads it. -/
  cpuHz : Rate
  deriving DecidableEq, Repr

/-- The CPU rate the spec leaves OPEN (R6, D27): some positive rate, no value of which can be proved (log entry 4). -/
opaque Config.openCpuHz : Rate

/-- The byte the n-th Cxkk takes when the host has put none on the rnd port: free (R6, D16; log entry 3). -/
opaque Config.freeRnd : Nat → Byte

/-- The standard font of 20_memory.md R53, digits 0 to F (PRESUMED by the spec itself: its item G1). -/
def Config.standardFont : FontTable :=
  #v[#v[0xF0, 0x90, 0x90, 0x90, 0xF0],
     #v[0x20, 0x60, 0x20, 0x20, 0x70],
     #v[0xF0, 0x10, 0xF0, 0x80, 0xF0],
     #v[0xF0, 0x10, 0xF0, 0x10, 0xF0],
     #v[0x90, 0x90, 0xF0, 0x10, 0x10],
     #v[0xF0, 0x80, 0xF0, 0x10, 0xF0],
     #v[0xF0, 0x80, 0xF0, 0x90, 0xF0],
     #v[0xF0, 0x10, 0x20, 0x40, 0x40],
     #v[0xF0, 0x90, 0xF0, 0x90, 0xF0],
     #v[0xF0, 0x90, 0xF0, 0x10, 0xF0],
     #v[0xF0, 0x90, 0xF0, 0x90, 0x90],
     #v[0xE0, 0x90, 0xE0, 0x90, 0xE0],
     #v[0xF0, 0x80, 0x80, 0x80, 0xF0],
     #v[0xE0, 0x90, 0x90, 0x90, 0xE0],
     #v[0xF0, 0x80, 0xF0, 0x80, 0xF0],
     #v[0xF0, 0x80, 0xF0, 0x80, 0x80]]

/-- The defaults of R6: "the value this hardware takes unless a claim names another". -/
def Config.default : Config where
  shiftSource := .vx
  addiVf := .none
  fontDigit := .lowNibble
  fontWrite := .fault
  keyIndex := .notPressed
  fontTable := Config.standardFont
  cpuHz := Config.openCpuHz

end Sys2Proof
end

