-- ==== Sys2Proof/Machine/State.lean ====
section
/-! DEFINITION. The architectural state (10_state.md), the block's outputs and inputs held as data
(60_exceptions.md R207, R220), the reasons a step can stop, and the state after reset (R38). -/

namespace Sys2Proof.Machine

/-- The fatal faults (60_exceptions.md R200), each taken by `State.takeFault` as a next state. -/
inductive FatalFault where
  /-- CALL with SP already 15 (R122). -/
  | stackOverflow
  /-- RET with SP 0 (R120). -/
  | stackUnderflow
  /-- A fetch or access beyond 0xFFF, a store into the font table, a key index above 0xF (R55 to R57, R102, R137). -/
  | addressOutOfRange
  deriving DecidableEq, Repr

/-- The run state (10_state.md R36). -/
inductive Run where
  | running
  /-- An Fx0A at PC waits for a key press; the key goes to Vx (R171). -/
  | waiting (x : Reg)
  /-- Fault `e` at instruction address `pc` with instruction word `word`, none for a fetch fault (R203). -/
  | halted (e : FatalFault) (pc : Word) (word : Option Word)
  deriving DecidableEq, Repr

/-- The kinds the core reports (R200, R207). -/
inductive ReportKind where
  | unknownOpcode
  | fatal (e : FatalFault)
  deriving DecidableEq, Repr

/-- One report on the error-reporting channel: (kind, pc, word, addr) (R207). -/
structure Report where
  kind : ReportKind
  pc : Word
  word : Option Word
  /-- The faulting address where R200 lists one, an unbounded natural (R55, R56). -/
  addr : Option Nat
  deriving DecidableEq, Repr

/-- The load_status output (R220): the result of the load, ok or RomTooLarge (R244). -/
inductive LoadStatus where
  /-- No load has been offered since Init. DESIGN CHOICE (log entry 14): R220 gives the output no value before a
  load. -/
  | none
  | ok
  | romTooLarge
  deriving DecidableEq, Repr

/-- What can take effect between or as steps: the input ports of 60_exceptions.md R220, the reading of the frame
port (R222), and the passing of wall-clock time of the timed refinement (R212). -/
inductive Input where
  /-- Re-initialise all state (R240). -/
  | init
  /-- Offer a ROM image on the load port (R243). -/
  | load (rom : List Byte)
  /-- Run one CPU cycle (R100). -/
  | cpuClock
  /-- One timer tick (R210). -/
  | timerClock
  /-- key_event(k, p): key k was pressed (p = true) or released (R221). -/
  | keyEvent (k : Key) (p : Bool)
  /-- A byte on the rnd port (R224). -/
  | rnd (b : Byte)
  /-- The host reads the frame output (R222). -/
  | frame
  /-- Stop between cycles (R227). -/
  | shutdown
  /-- `d` units of wall-clock time pass, `State.unitsPerTick` of them in 1/60 s (R212; timed refinement only). -/
  | elapse (d : Nat)
  /-- One period of the CPU cycle clock, 1/CPU_HZ s, passes (R212, R213; timed refinement only). -/
  | cpuPeriod
  deriving DecidableEq, Repr

/-- Memory: the bytes that differ from what an unlisted address reads as, addresses strictly rising. -/
abbrev Memory := List Host.Cell

/-- The display buffer: row py in 0 to 31, column px in 0 to 63 is bit px of the row (10_state.md R33). -/
abbrev Display := Vector (BitVec 64) 32

/-- Everything the spec gives the core (10_state.md R20 to R37), the block's interface as data (R207, R220), the
parameters (R6), and the model's own input queues. -/
structure State where
  /-- V0 to VF (R20). -/
  v : Vector Byte 16
  /-- I (R27). -/
  i : Addr
  /-- PC (R23). -/
  pc : Word
  /-- SP, 0 to 15 (R28). -/
  sp : Fin 16
  /-- Stack[0..15] (R29). -/
  stack : Vector Word 16
  /-- DT (R30). -/
  dt : Byte
  /-- ST (R31). -/
  st : Byte
  /-- Mem (R35). -/
  mem : Memory
  /-- Disp (R33). -/
  disp : Display
  /-- Keys, true means pressed (R34). -/
  keys : Vector Bool 16
  /-- Run (R36). -/
  run : Run
  /-- Time since the last tick, `State.unitsPerTick` units being 1/60 s; timed refinement only (R37, R212). -/
  elapsed : Nat
  /-- The implementation parameters (R6); no step changes them. -/
  cfg : Config
  /-- The error-reporting channel so far, oldest report first (R207). -/
  reports : List Report
  /-- The load_status output (R220); before any load the model's own value (log entry 14). -/
  loadStatus : LoadStatus
  /-- Whether a CPU cycle has run since Init (70_reset_and_hazards.md R242). -/
  started : Bool
  /-- The model's own: what takes effect next, oldest first (R211; log entry 1). -/
  inputs : List Input
  /-- The model's own: bytes put on the rnd port and not taken yet, oldest first (log entry 3). -/
  rndIn : List Byte
  /-- The model's own: how many bytes RND has taken (log entry 3). -/
  rndCount : Nat
  deriving DecidableEq, Repr

/-- Why a step stops with nothing to do. No instruction raises one: they are about a core that cannot move. -/
inductive Fault where
  /-- Raised by `step` when the core is Halted and no input is left: stuck until Init (R203, IMP15). Safe. -/
  | stuckHalted
  /-- Raised by `step` when the core waits in Fx0A and no input is left: stuck, no CPU cycle is enabled (R101,
  IMP8). Safe. -/
  | stuckWaiting
  /-- Raised by `step` when the ROM load failed and no input is left: execution never starts (R244). Safe. -/
  | loadFailed
  /-- Raised by `step` on the shutdown input: the run has ended (R227). Safe. -/
  | shutdown
  deriving DecidableEq, Repr

/-- What the model gives no meaning to. -/
inductive Refusal where
  /-- An instruction without a meaning yet, by its mnemonic in the opcode table: raised by `exec`. Safe. -/
  | notModelled (mnemonic : String)
  /-- A ROM offered after the first cycle or after another load, which R226 makes the host's duty not to do:
  raised by `State.loadRom`. Safe. -/
  | loadOutOfOrder
  deriving DecidableEq, Repr

/-- The state right after Init on a core with the default parameters (10_state.md R38, 70_reset_and_hazards.md
R240). `mem` lists nothing: every byte reads as its reset content. The input queues are empty (log entries 1, 3),
and load_status is the model's value for no load yet (log entry 14). -/
def State.reset : State where
  v := Vector.replicate 16 0
  i := 0
  pc := 0x200
  sp := 0
  stack := Vector.replicate 16 0
  dt := 0
  st := 0
  mem := []
  disp := Vector.replicate 32 0
  keys := Vector.replicate 16 false
  run := .running
  elapsed := 0
  cfg := Config.default
  reports := []
  loadStatus := .none
  started := false
  inputs := []
  rndIn := []
  rndCount := 0

end Sys2Proof.Machine
end

