-- ==== Sys2Proof/Machine/Operands.lean ====
section
/-! DEFINITION. Every operand form: general registers (10_state.md R20), the shift source (43_alu.md R148), the
font digit (46_index_mem.md R182), the key test (42_skip.md R137), the random byte (43_alu.md R151) and the register
block V0 to Vx (46_index_mem.md R184, R185). -/

namespace Sys2Proof.Machine

/-- V[r] (00_scope.md R9). -/
def State.getV (s : State) (r : Reg) : Byte := s.v[r.val]

/-- V[r] <- b (00_scope.md R9). -/
def State.setV (s : State) (r : Reg) (b : Byte) : State := { s with v := s.v.set r.val b }

/-- The operand of SHR and SHL: Vx, or Vy under SHIFT_SOURCE = VY (R148, R150). -/
def State.shiftOperand (s : State) (x y : Reg) : Byte :=
  match s.cfg.shiftSource with
  | .vx => s.getV x
  | .vy => s.getV y

/-- The low nibble of a byte, as an index. -/
def lowNibble (b : Byte) : Fin 16 := Fin.ofNat 16 b.toNat

/-- The digit d of Fx29 (R182). -/
def State.fontDigit (s : State) (x : Reg) : Nat :=
  match s.cfg.fontDigit with
  | .lowNibble => (lowNibble (s.getV x)).val
  | .full => (s.getV x).toNat

/-- Keys[k] (R34). -/
def State.keyDown (s : State) (k : Key) : Bool := s.keys[k.val]

/-- Keys[k] <- p (R34). -/
def State.setKey (s : State) (k : Key) (p : Bool) : State := { s with keys := s.keys.set k.val p }

/-- KeyPressed(b) (R137): the key's state, or the faulting address. -/
def State.keyPressed (s : State) (b : Byte) : Except Nat Bool :=
  if b.toNat ≤ 0xF then .ok (s.keyDown (lowNibble b))
  else
    match s.cfg.keyIndex with
    | .notPressed => .ok false
    | .lowNibble => .ok (s.keyDown (lowNibble b))
    | .fault => .error b.toNat

/-- The byte rnd() gives (R151): the oldest byte on the rnd port, and where the host has given none, a free value
of this execution (log entry 3). -/
def State.rndByte (s : State) : Byte :=
  match s.rndIn with
  | b :: _ => b
  | [] => Config.freeRnd s.rndCount

/-- rnd() takes its byte: the next execution gets a fresh one (R224). -/
def State.takeRnd (s : State) : State := { s with rndIn := s.rndIn.tail, rndCount := s.rndCount + 1 }

/-- V[0], V[1], ..., V[x] (R184). -/
def State.regBlock (s : State) (x : Reg) : List Byte := s.v.toList.take (x.val + 1)

/-- V[j] <- b[j] for every j the list has (R185). -/
def State.setRegBlock (s : State) (bs : List Byte) : State :=
  { s with v := Vector.ofFn fun j : Fin 16 => bs.getD j.val s.v[j.val] }

end Sys2Proof.Machine
end

