-- ==== Sys2Proof/Machine/Flags.lean ====
section
/-! DEFINITION. The arithmetic of 43_alu.md R138 and every flag of 10_state.md R32. Sums and differences are exact
on naturals and then narrowed; a flag is the byte 1 or 0. -/

namespace Sys2Proof.Machine

/-- "(c) ? 1 : 0" as VF holds it. -/
def flag (c : Bool) : Byte := if c then 1 else 0

/-- (a + b) mod 256 (R141, R146). -/
def sumByte (a b : Byte) : Byte := BitVec.ofNat 8 (a.toNat + b.toNat)

/-- The carry of 8xy4: the exact sum exceeds 255 (R146). -/
def carryFlag (a b : Byte) : Byte := flag (decide (a.toNat + b.toNat > 255))

/-- (a - b) mod 256, the mathematical residue (R147, 00_scope.md R8). -/
def diffByte (a b : Byte) : Byte := BitVec.ofInt 8 ((a.toNat : Int) - (b.toNat : Int))

/-- The no-borrow flag of a - b: the minuend is at least the subtrahend (R147, R149). -/
def noBorrowFlag (a b : Byte) : Byte := flag (decide (a.toNat ≥ b.toNat))

/-- s >> 1 (R148). -/
def shiftRightByte (s : Byte) : Byte := BitVec.ofNat 8 (s.toNat / 2)

/-- The bit shifted out to the right, bit 0 (R148). -/
def shiftRightFlag (s : Byte) : Byte := flag (s.getLsbD 0)

/-- (s << 1) mod 256 (R150). -/
def shiftLeftByte (s : Byte) : Byte := BitVec.ofNat 8 (2 * s.toNat)

/-- The bit shifted out to the left, bit 7 (R150). -/
def shiftLeftFlag (s : Byte) : Byte := flag (s.getLsbD 7)

/-- (I + Vx) mod 0x1000 (46_index_mem.md R181). -/
def sumIndex (i : Addr) (b : Byte) : Addr := BitVec.ofNat 12 (i.toNat + b.toNat)

/-- The overflow flag of Fx1E: the exact sum passed 0xFFF (R181). -/
def indexOverflowFlag (i : Addr) (b : Byte) : Byte := flag (decide (i.toNat + b.toNat > 0xFFF))

/-- The three decimal digits of a byte, hundreds first (R183). -/
def decimalDigits (b : Byte) : List Byte :=
  [BitVec.ofNat 8 (b.toNat / 100), BitVec.ofNat 8 (b.toNat / 10 % 10), BitVec.ofNat 8 (b.toNat % 10)]

/-- VF <- f, the last write of an instruction with a flag effect (00_scope.md R11). -/
def State.setFlag (s : State) (f : Byte) : State := s.setV VF f

end Sys2Proof.Machine
end

