-- ==== Sys2Proof/Machine/Ops.lean ====
section
/-! DEFINITION. The shared operations: memory (20_memory.md), PC advance (40_cycle.md R104), taking a fault
(60_exceptions.md R203), fetch (40_cycle.md R102, R103), the call stack (10_state.md R29) and the sprite engine
(44_display.md R162 to R165). -/

namespace Sys2Proof.Machine

/-- What a step or an instruction of this machine answers. -/
abbrev Result := Host.Outcome State Fault Refusal

/-! ## Memory -/

/-- What an unlisted address reads as: its reset content, the font table below 0x050 and 0 elsewhere (R52, R53, R38). -/
def resetByte (font : FontTable) (a : Nat) : Byte :=
  if h : a < 80 then (font[a / 5]'(by omega))[a % 5]'(by omega) else 0

/-- Mem[a] (R35). -/
def Memory.get (font : FontTable) : Memory → Nat → Byte
  | [], a => resetByte font a
  | (a', b) :: rest, a => if a' = a then b else Memory.get font rest a

/-- The listing of one byte: nothing when it is the byte's reset content. -/
def Memory.entry (font : FontTable) (a : Nat) (b : Byte) : Memory :=
  if b = resetByte font a then [] else [(a, b)]

/-- Mem[a] <- b, keeping addresses rising and no entry equal to its reset content. -/
def Memory.put (font : FontTable) (a : Nat) (b : Byte) : Memory → Memory
  | [] => Memory.entry font a b
  | (a', b') :: rest =>
    if a < a' then Memory.entry font a b ++ (a', b') :: rest
    else if a = a' then Memory.entry font a b ++ rest
    else (a', b') :: Memory.put font a b rest

/-- Mem[a], Mem[a+1], ... <- the bytes, in address order. -/
def Memory.putAll (font : FontTable) : Nat → List Byte → Memory → Memory
  | _, [], m => m
  | a, b :: bs, m => Memory.putAll font (a + 1) bs (Memory.put font a b m)

/-- The canonical form: addresses strictly rising, all in 0x000 to 0xFFF (R50), no entry at its reset content. -/
abbrev Memory.wf (font : FontTable) (m : Memory) : Prop :=
  m.Pairwise (fun c d => c.1 < d.1) ∧ ∀ c ∈ m, c.1 < 4096 ∧ c.2 ≠ resetByte font c.1

/-- Mem[a] of a state. -/
def State.byteAt (s : State) (a : Nat) : Byte := s.mem.get s.cfg.fontTable a

/-- The n bytes Mem[a], ..., Mem[a+n-1]. -/
def State.bytesAt (s : State) (a n : Nat) : List Byte := (List.range n).map fun j => s.byteAt (a + j)

/-- The memory of a state with bytes written. -/
def State.putBytes (s : State) (a : Nat) (bs : List Byte) : State :=
  { s with mem := s.mem.putAll s.cfg.fontTable a bs }

/-- MemRead(addr, n) (R55): the bytes, or the faulting address addr + n - 1, the last byte of the access (C12). -/
def State.memRead (s : State) (addr n : Nat) : Except Nat (List Byte) :=
  if n ≥ 1 ∧ addr + n - 1 > 0xFFF then .error (addr + n - 1) else .ok (s.bytesAt addr n)

/-- MemWrite(addr, n, v) (R56, R57): the state with the bytes written, or the faulting address. -/
def State.memWrite (s : State) (addr : Nat) (bs : List Byte) : Except Nat State :=
  if addr + bs.length - 1 > 0xFFF then .error (addr + bs.length - 1)
  else if s.cfg.fontWrite = .fault ∧ addr ≤ 0x04F then .error addr
  else .ok (s.putBytes addr bs)

/-! ## The program counter -/

/-- PC <- PC + 2, the default advance (R104). -/
def State.advance (s : State) : State := { s with pc := s.pc + 2 }

/-- A skip: PC <- PC + 4 if the condition holds, else PC + 2 (42_skip.md R130). -/
def State.skipIf (s : State) (c : Bool) : State := { s with pc := if c then s.pc + 4 else s.pc + 2 }

/-- The instruction completes: its state, with the default advance. -/
def State.done (s : State) : Result := .next s.advance

/-! ## Faults -/

/-- TakeFault(E, pc, word, addr) (R203): only Run and the report channel change; PC stays at the faulting
instruction. There is no return from a fault (R204): Halted is left by Init alone (R246), `State.init`. -/
def State.takeFault (s : State) (e : FatalFault) (word : Option Word) (addr : Option Nat) : State :=
  { s with
    run := .halted e s.pc word
    reports := s.reports ++ [⟨.fatal e, s.pc, word, addr⟩] }

/-- `raise E(pc, word, addr)` inside instruction i: the whole instruction is abandoned (00_scope.md R10). -/
def State.raise (s : State) (e : FatalFault) (i : Instr) (addr : Option Nat) : Result :=
  .next (s.takeFault e (some (encode i)) addr)

/-! ## Fetch -/

/-- The word at PC: Mem[PC] above Mem[PC+1] (R103), as memory stands at this moment (R64). -/
def State.fetchWord (s : State) : Word := wordOfBytes (s.byteAt s.pc.toNat) (s.byteAt (s.pc.toNat + 1))

/-! ## The call stack -/

/-- Stack[SP]. -/
def State.stackTop (s : State) : Word := s.stack[s.sp.val]

/-- SP <- SP + 1; Stack[SP] <- w, for SP below 15 (41_flow.md R122). -/
def State.push (s : State) (w : Word) : State :=
  { s with sp := s.sp + 1, stack := s.stack.set (s.sp + 1).val w }

/-- SP <- SP - 1, for SP above 0; the entry stays (41_flow.md R120). -/
def State.pop (s : State) : State := { s with sp := s.sp - 1 }

/-! ## The sprite engine -/

/-- Disp[py][px]. -/
def Display.pixel (d : Display) (py : Fin 32) (px : Fin 64) : Bool := d[py.val].getLsbD px.val

/-- Disp[py][px] <- Disp[py][px] ^ 1. -/
def Display.flip (d : Display) (py : Fin 32) (px : Fin 64) : Display :=
  d.set py.val (d[py.val] ^^^ BitVec.twoPow 64 px.val)

/-- The display with every pixel 0 (R161). -/
def Display.clear : Display := Vector.replicate 32 0

/-- One pixel of a sprite: a set sprite bit flips its pixel and collides when that pixel was 1 (R162, R165). The
column and row wrap on their own (R164). -/
def drawPixel (bit : Bool) (col row : Nat) (acc : Display × Bool) : Display × Bool :=
  if bit then
    let px := Fin.ofNat 64 col
    let py := Fin.ofNat 32 row
    (acc.1.flip py px, acc.2 || acc.1.pixel py px)
  else acc

/-- One row of a sprite: column offset k is bit 7 - k of the byte (R163). -/
def drawRow (byte : Byte) (cx row : Nat) (acc : Display × Bool) : Display × Bool :=
  (List.range 8).foldl (fun acc k => drawPixel (byte.getLsbD (7 - k)) (cx + k) row acc) acc

/-- The rows of a sprite from row `row` down; the collision flag accumulates (R162). -/
def drawRows (cx : Nat) : Nat → List Byte → Display × Bool → Display × Bool
  | _, [], acc => acc
  | row, byte :: rest, acc => drawRows cx (row + 1) rest (drawRow byte cx row acc)

/-- draw-sprite(cx, cy, sprite) → the display and the collision (R160, R162). -/
def drawSprite (cx cy : Nat) (sprite : List Byte) (d : Display) : Display × Bool :=
  drawRows cx cy sprite (d, false)

end Sys2Proof.Machine
end

