-- ==== Sys2Proof/Machine/Alu.lean ====
section
/-! DEFINITION. Register loads and arithmetic (43_alu.md). Operands are read before any write, and VF is written
last as the flag (R138, 00_scope.md R11). -/

namespace Sys2Proof.Machine

/-- Vx <- r, then VF <- f, then the default advance: the shape of every instruction with a flag effect (R138). -/
def State.writeResult (s : State) (x : Reg) (r f : Byte) : Result := ((s.setV x r).setFlag f).done

/-- LD Vx, kk (R140). -/
def execLdByte (x : Reg) (kk : Byte) (s : State) : Result := (s.setV x kk).done

/-- ADD Vx, kk (R141): no flag. -/
def execAddByte (x : Reg) (kk : Byte) (s : State) : Result := (s.setV x (sumByte (s.getV x) kk)).done

/-- LD Vx, Vy (R142). -/
def execLdReg (x y : Reg) (s : State) : Result := (s.setV x (s.getV y)).done

/-- OR Vx, Vy (R143): VF is not reset (D10). -/
def execOrReg (x y : Reg) (s : State) : Result := (s.setV x (s.getV x ||| s.getV y)).done

/-- AND Vx, Vy (R144): VF is not reset (D10). -/
def execAndReg (x y : Reg) (s : State) : Result := (s.setV x (s.getV x &&& s.getV y)).done

/-- XOR Vx, Vy (R145): VF is not reset (D10). -/
def execXorReg (x y : Reg) (s : State) : Result := (s.setV x (s.getV x ^^^ s.getV y)).done

/-- ADD Vx, Vy (R146). -/
def execAddReg (x y : Reg) (s : State) : Result :=
  s.writeResult x (sumByte (s.getV x) (s.getV y)) (carryFlag (s.getV x) (s.getV y))

/-- SUB Vx, Vy (R147): Vx - Vy. -/
def execSubReg (x y : Reg) (s : State) : Result :=
  s.writeResult x (diffByte (s.getV x) (s.getV y)) (noBorrowFlag (s.getV x) (s.getV y))

/-- SHR Vx, Vy (R148). -/
def execShr (x y : Reg) (s : State) : Result :=
  s.writeResult x (shiftRightByte (s.shiftOperand x y)) (shiftRightFlag (s.shiftOperand x y))

/-- SUBN Vx, Vy (R149): Vy - Vx. -/
def execSubn (x y : Reg) (s : State) : Result :=
  s.writeResult x (diffByte (s.getV y) (s.getV x)) (noBorrowFlag (s.getV y) (s.getV x))

/-- SHL Vx, Vy (R150). -/
def execShl (x y : Reg) (s : State) : Result :=
  s.writeResult x (shiftLeftByte (s.shiftOperand x y)) (shiftLeftFlag (s.shiftOperand x y))

/-- RND Vx, kk (R151). -/
def execRnd (x : Reg) (kk : Byte) (s : State) : Result := (s.takeRnd.setV x (s.rndByte &&& kk)).done

end Sys2Proof.Machine
end

