-- ==== Sys2Proof/Machine/DisplayUnit.lean ====
section
/-! DEFINITION. The display instructions (44_display.md). -/

namespace Sys2Proof.Machine

/-- CLS (R161). -/
def execCls (s : State) : Result := State.done { s with disp := Display.clear }

/-- DRW Vx, Vy, n (R162): the range check comes before any pixel changes. -/
def execDrw (x y : Reg) (n : Fin 16) (s : State) : Result :=
  match s.memRead s.i.toNat n.val with
  | .error a => s.raise .addressOutOfRange (.drw x y n) (some a)
  | .ok sprite =>
    let drawn := drawSprite (s.getV x).toNat (s.getV y).toNat sprite s.disp
    (State.setFlag { s with disp := drawn.1 } (flag drawn.2)).done

end Sys2Proof.Machine
end

