-- ==== Sys2Proof/Machine/Flow.lean ====
section
/-! DEFINITION. Jumps, calls and returns (41_flow.md). -/

namespace Sys2Proof.Machine

/-- RET (R120). -/
def execRet (s : State) : Result :=
  if s.sp = 0 then s.raise .stackUnderflow .ret none
  else .next { s.pop with pc := s.stackTop }

/-- JP nnn (R121). -/
def execJp (nnn : Addr) (s : State) : Result := .next { s with pc := nnn.setWidth 16 }

/-- CALL nnn (R122). -/
def execCall (nnn : Addr) (s : State) : Result :=
  if s.sp = 15 then s.raise .stackOverflow (.call nnn) none
  else .next { s.push (s.pc + 2) with pc := nnn.setWidth 16 }

/-- JP V0, nnn (R123): the register is always V0, and the sum keeps 16 bits (D5). -/
def execJpV0 (nnn : Addr) (s : State) : Result :=
  .next { s with pc := (s.getV 0).setWidth 16 + nnn.setWidth 16 }

end Sys2Proof.Machine
end

