-- ==== Sys2Proof/Machine/IndexMem.lean ====
section
/-! DEFINITION. The index register and memory transfers (46_index_mem.md). -/

namespace Sys2Proof.Machine

/-- LD I, nnn (R180). -/
def execLdI (nnn : Addr) (s : State) : Result := State.done { s with i := nnn }

/-- ADD I, Vx (R181): the 12-bit wrap; VF only under ADDI_VF = overflow, written last. -/
def execAddI (x : Reg) (s : State) : Result :=
  let sum : State := { s with i := sumIndex s.i (s.getV x) }
  match s.cfg.addiVf with
  | .none => sum.done
  | .overflow => (sum.setFlag (indexOverflowFlag s.i (s.getV x))).done

/-- LD F, Vx (R182): I <- (0x000 + 5 * d) mod 0x1000. -/
def execLdF (x : Reg) (s : State) : Result :=
  State.done { s with i := BitVec.ofNat 12 (0x000 + 5 * s.fontDigit x) }

/-- The end of a store: the written state advances, or the fault is taken (R183, R184). -/
def State.finishStore (s : State) (i : Instr) : Except Nat State → Result
  | .ok t => t.done
  | .error a => s.raise .addressOutOfRange i (some a)

/-- LD B, Vx (R183). -/
def execLdB (x : Reg) (s : State) : Result :=
  s.finishStore (.ldB x) (s.memWrite s.i.toNat (decimalDigits (s.getV x)))

/-- LD [I], Vx (R184): I is not changed (D8). -/
def execStoreRegs (x : Reg) (s : State) : Result :=
  s.finishStore (.storeRegs x) (s.memWrite s.i.toNat (s.regBlock x))

/-- LD Vx, [I] (R185): I is not changed (D8). -/
def execLoadRegs (x : Reg) (s : State) : Result :=
  match s.memRead s.i.toNat (x.val + 1) with
  | .ok bs => (s.setRegBlock bs).done
  | .error a => s.raise .addressOutOfRange (.loadRegs x) (some a)

end Sys2Proof.Machine
end

