-- ==== Sys2Proof/Machine/Skip.lean ====
section
/-! DEFINITION. Conditional skips (42_skip.md). -/

namespace Sys2Proof.Machine

/-- SE Vx, kk (R131). -/
def execSeByte (x : Reg) (kk : Byte) (s : State) : Result := .next (s.skipIf (s.getV x == kk))

/-- SNE Vx, kk (R132). -/
def execSneByte (x : Reg) (kk : Byte) (s : State) : Result := .next (s.skipIf (s.getV x != kk))

/-- SE Vx, Vy (R133). -/
def execSeReg (x y : Reg) (s : State) : Result := .next (s.skipIf (s.getV x == s.getV y))

/-- SNE Vx, Vy (R134). -/
def execSneReg (x y : Reg) (s : State) : Result := .next (s.skipIf (s.getV x != s.getV y))

/-- SKP Vx (R135). -/
def execSkp (x : Reg) (s : State) : Result :=
  match s.keyPressed (s.getV x) with
  | .ok down => .next (s.skipIf down)
  | .error a => s.raise .addressOutOfRange (.skp x) (some a)

/-- SKNP Vx (R136). -/
def execSknp (x : Reg) (s : State) : Result :=
  match s.keyPressed (s.getV x) with
  | .ok down => .next (s.skipIf (!down))
  | .error a => s.raise .addressOutOfRange (.sknp x) (some a)

end Sys2Proof.Machine
end

