-- ==== Sys2Proof/Machine/TimerKey.lean ====
section
/-! DEFINITION. Timer and key instructions (45_timer_key.md). -/

namespace Sys2Proof.Machine

/-- LD Vx, DT (R170). -/
def execLdVxDT (x : Reg) (s : State) : Result := (s.setV x s.dt).done

/-- LD Vx, K, the suspending half (R171): PC stays; `State.completeKeyWait` is the other half. -/
def execLdVxK (x : Reg) (s : State) : Result := .next { s with run := .waiting x }

/-- LD DT, Vx (R173). -/
def execLdDTVx (x : Reg) (s : State) : Result := State.done { s with dt := s.getV x }

/-- LD ST, Vx (R174). -/
def execLdSTVx (x : Reg) (s : State) : Result := State.done { s with st := s.getV x }

end Sys2Proof.Machine
end

