-- ==== Sys2Proof/Machine/Inputs.lean ====
section
/-! DEFINITION. The block's interface (60_exceptions.md R220 to R227) but for the CPU clock: initialisation and ROM
load (70_reset_and_hazards.md R240 to R246), timer ticks (R210), the timed refinement (R212), key events (R221) and
the outputs. -/

namespace Sys2Proof.Machine

/-! ## Init and load -/

/-- Init() (R240): every piece of state at its reset value. What is not state stays (log entry 6): the parameters,
the reports already sent, and the inputs not taken yet. -/
def State.init (s : State) : State :=
  { State.reset with
    cfg := s.cfg
    reports := s.reports
    inputs := s.inputs
    rndIn := s.rndIn
    rndCount := s.rndCount }

/-- LoadRom(rom) (R243, R244), in the boot order of R242: after Init, at most once, before the first cycle. -/
def State.loadRom (s : State) (rom : List Byte) : Result :=
  if s.started ∨ s.loadStatus ≠ .none then .refused .loadOutOfOrder
  else if rom.length > 0xDFF then .next { s with loadStatus := .romTooLarge }
  else .next { s.putBytes 0x200 rom with loadStatus := .ok }

/-! ## The timer clock -/

/-- One timer falls by 1 and stops at 0 (R210). -/
def decrement (b : Byte) : Byte := if b.toNat > 0 then b - 1 else b

/-- Halted (R36). -/
def State.isHalted (s : State) : Bool :=
  match s.run with
  | .halted _ _ _ => true
  | .waiting _ => false
  | .running => false

/-- Tick() (R210): both timers, enabled unless Halted. -/
def State.tick (s : State) : State :=
  if s.isHalted then s else { s with dt := decrement s.dt, st := decrement s.st }

/-- `n` ticks. -/
def State.ticks : Nat → State → State
  | 0, s => s
  | n + 1, s => State.ticks n s.tick

/-- The units of wall-clock time in 1/60 s, the period of the timer clock: with CPU_HZ = num / den a unit is
1/(60 * num) s, which divides this period and the CPU clock's (log entry 4). -/
def State.unitsPerTick (s : State) : Nat := s.cfg.cpuHz.num

/-- The units of wall-clock time in 1/CPU_HZ = den / num s, the period of the CPU cycle clock (R213). -/
def State.unitsPerCycle (s : State) : Nat := 60 * s.cfg.cpuHz.den

/-- `d` units of wall-clock time pass (R212): a tick is due each 1/60 s. The timer clock stops when Halted (R203). -/
def State.elapse (s : State) (d : Nat) : State :=
  if s.isHalted then s
  else State.ticks ((s.elapsed + d) / s.unitsPerTick) { s with elapsed := (s.elapsed + d) % s.unitsPerTick }

/-! ## Key events -/

/-- OnKeyPress(k) while Waiting(x), the completing half of Fx0A (45_timer_key.md R172). -/
def State.completeKeyWait (s : State) (x : Reg) (k : Key) : State :=
  { ((s.setV x (BitVec.ofNat 8 k.val)).setKey k false).advance with run := .running }

/-- KeyEvent(k, p) (R221), enabled unless Halted. -/
def State.keyEvent (s : State) (k : Key) (p : Bool) : State :=
  match s.run with
  | .halted _ _ _ => s
  | .waiting x => if p then s.completeKeyWait x k else s.setKey k p
  | .running => s.setKey k p

/-! ## Outputs -/

/-- frame: a copy of Disp (R222). -/
def State.frameOut (s : State) : Display := s.disp

/-- tone: ST > 0 (R223). -/
def State.toneOut (s : State) : Bool := decide (s.st.toNat > 0)

/-- halted: kind, pc and word while Run = Halted (R220). -/
def State.haltedOut (s : State) : Option (FatalFault × Word × Option Word) :=
  match s.run with
  | .halted e pc word => some (e, pc, word)
  | .waiting _ => none
  | .running => none

/-- waiting: Run = Waiting(x) (R220). -/
def State.waitingOut (s : State) : Bool :=
  match s.run with
  | .waiting _ => true
  | .halted _ _ _ => false
  | .running => false

end Sys2Proof.Machine
end

