-- ==== Sys2Proof/Machine/Cycle.lean ====
section
/-! DEFINITION. The fetch-decode-execute cycle (40_cycle.md) and the delivery of one input (60_exceptions.md R211). -/

namespace Sys2Proof.Machine

/-- ExecUnknown(w) (R106): a reported no-op that advances PC by 2. -/
def execUnknown (w : Word) (s : State) : Result :=
  State.done { s with reports := s.reports ++ [⟨.unknownOpcode, s.pc, some w, none⟩] }

/-- Execute(op, w) (R105). -/
def execDecoded (d : Decoded) (s : State) : Result :=
  match d with
  | .instr i => exec i s
  | .unknown w => execUnknown w s

/-- The first cycle ends the time in which a ROM may be loaded (70_reset_and_hazards.md R242). -/
def State.beginCycle (s : State) : State := { s with started := true }

/-- Fetch, decode and execute one instruction (R100): the fetch check first (R102). -/
def State.runCycle (s : State) : Result :=
  if s.pc.toNat > 0xFFE then .next (s.takeFault .addressOutOfRange none (some s.pc.toNat))
  else execDecoded (decodeWord s.fetchWord) s

/-- A cycle may run (R101): Run = Running, and no failed ROM load (R244: "no cycle ever runs"). -/
def State.cycleEnabled (s : State) : Bool := s.run == .running && s.loadStatus != .romTooLarge

/-- The cpu_clock input (R220): a cycle where one is enabled, nothing elsewhere (R101). -/
def State.clockCpu (s : State) : Result := if s.cycleEnabled then s.beginCycle.runCycle else .next s

/-- One input takes effect (R211, R220). -/
def State.deliver (s : State) : Input → Result
  | .init => .next s.init
  | .load rom => s.loadRom rom
  | .cpuClock => s.clockCpu
  | .timerClock => .next s.tick
  | .keyEvent k p => .next (s.keyEvent k p)
  | .rnd b => .next { s with rndIn := s.rndIn ++ [b] }
  | .frame => .next s
  | .shutdown => .fault .shutdown
  | .elapse d => .next (s.elapse d)
  | .cpuPeriod => .next (s.elapse s.unitsPerCycle)

/-- With no input left the core is clocked; one that cannot run a cycle is stuck (IMP8, IMP15, R244). -/
def State.runFree (s : State) : Result :=
  match s.run with
  | .halted _ _ _ => .fault .stuckHalted
  | .waiting _ => .fault .stuckWaiting
  | .running => if s.loadStatus = .romTooLarge then .fault .loadFailed else s.clockCpu

end Sys2Proof.Machine
end

