-- ==== Sys2Proof/Machine/Step.lean ====
section
/-! DEFINITION. One step of the machine: the next input takes effect, and with no input left the core is clocked
(60_exceptions.md R211; log entry 1). -/

namespace Sys2Proof.Machine

/-- One step. -/
def step (s : State) : Host.Outcome State Fault Refusal :=
  match s.inputs with
  | [] => s.runFree
  | input :: rest => State.deliver { s with inputs := rest } input

/-- Where `withFetchWord` puts its word: PC, or the entry point 0x200 when PC is beyond the last legal fetch. -/
def State.fetchPc (s : State) : Word := if s.pc.toNat > 0xFFE then 0x200 else s.pc

/-- The state with an instruction word stored where `step` fetches next, its bits numbered as the opcode table
numbers them, and with what the very next step needs to fetch it: no input before the cycle, Run = Running, and no
failed ROM load (log entry 7). -/
def State.withFetchWord (s : State) (nbits w : Nat) : State :=
  let word : Word := BitVec.ofNat 16 (w % 2 ^ nbits)
  { s with
    pc := s.fetchPc
    mem := s.mem.putAll s.cfg.fontTable s.fetchPc.toNat [highByte word, lowByte word]
    run := .running
    inputs := []
    loadStatus := if s.loadStatus = .romTooLarge then .none else s.loadStatus }

end Sys2Proof.Machine
end

