-- ==== Sys2Proof/Safety.lean ====
section
/-! DEFINITION. The terms in which statements speak of the machine: what stays unchanged, what a taken fault is, what
reset leaves, and the invariants of a run. -/

namespace Sys2Proof.Machine

/-! ## Frames -/

/-- The parts of the state, one per field of State; `rnd` is the two fields of the random input together. -/
inductive Part where
  | v | i | pc | sp | stack | dt | st | mem | disp | keys | run
  | elapsed | cfg | reports | loadStatus | started | inputs | rnd
  deriving DecidableEq, Repr

/-- A part is the same in two states; memory is compared by reading every address. -/
def Part.same (s t : State) : Part → Prop
  | .v => ∀ r, t.getV r = s.getV r
  | .i => t.i = s.i
  | .pc => t.pc = s.pc
  | .sp => t.sp = s.sp
  | .stack => t.stack = s.stack
  | .dt => t.dt = s.dt
  | .st => t.st = s.st
  | .mem => ∀ a, t.byteAt a = s.byteAt a
  | .disp => t.disp = s.disp
  | .keys => t.keys = s.keys
  | .run => t.run = s.run
  | .elapsed => t.elapsed = s.elapsed
  | .cfg => t.cfg = s.cfg
  | .reports => t.reports = s.reports
  | .loadStatus => t.loadStatus = s.loadStatus
  | .started => t.started = s.started
  | .inputs => t.inputs = s.inputs
  | .rnd => t.rndIn = s.rndIn ∧ t.rndCount = s.rndCount

/-- Every part of the state outside the listed ones is unchanged from `s` to `t`. -/
def SameExcept (changed : List Part) (s t : State) : Prop := ∀ p, p ∉ changed → p.same s t

/-- Every general register outside the listed ones is unchanged from `s` to `t`. -/
def RegsSameExcept (changed : List Reg) (s t : State) : Prop := ∀ r, r ∉ changed → t.getV r = s.getV r

/-- Every byte of memory outside the `n` bytes from address `a` reads in `t` as it did in `s`. -/
def BytesSameOutside (a n : Nat) (s t : State) : Prop := ∀ b, (b < a ∨ a + n ≤ b) → t.byteAt b = s.byteAt b

/-! ## A taken fault (60_exceptions.md R203) -/

/-- `t` is `s` with the fault taken: Run is Halted(E, pc, word), the report is sent, and the rest of the state is
exactly as before the instruction. -/
def Faulted (s t : State) (e : FatalFault) (word : Option Word) (addr : Option Nat) : Prop :=
  t.run = .halted e s.pc word ∧ t.reports = s.reports ++ [⟨.fatal e, s.pc, word, addr⟩] ∧
    SameExcept [.run, .reports] s t

/-! ## Reset (10_state.md R38) -/

/-- Every piece of state R38 lists has its reset value. -/
def AtReset (t : State) : Prop :=
  (∀ r, t.getV r = 0) ∧ t.i = 0 ∧ t.pc = 0x200 ∧ t.sp = 0 ∧ (∀ j : Fin 16, t.stack[j.val] = 0) ∧
  t.dt = 0 ∧ t.st = 0 ∧
  (∀ d : Fin 16, ∀ b : Fin 5, t.byteAt (5 * d.val + b.val) = (t.cfg.fontTable[d.val])[b.val]) ∧
  (∀ a, 0x050 ≤ a → t.byteAt a = 0) ∧
  (∀ py px, t.disp.pixel py px = false) ∧ (∀ k, t.keyDown k = false) ∧
  t.run = .running ∧ t.elapsed = 0

/-! ## When a cycle runs, and where an access completes -/

/-- A CPU cycle may run: Run = Running (R101) and no ROM load failed (R244). -/
def CanCycle (s : State) : Prop := s.run = .running ∧ s.loadStatus ≠ .romTooLarge

/-- A store of `n` bytes from address `a` is in range and, under FONT_WRITE_POLICY = fault, clear of the font table
(20_memory.md R56, R57). -/
def StoreAllowed (s : State) (a n : Nat) : Prop :=
  a + n ≤ 0x1000 ∧ (s.cfg.fontWrite = .fault → 0x050 ≤ a)

/-! ## The sprite engine, pixel by pixel (44_display.md R163, R164) -/

/-- Some set bit of the `n`-byte sprite at I, drawn at (cx, cy), lands on the pixel in row py and column px. -/
def SpriteCovers (s : State) (cx cy n : Nat) (py : Fin 32) (px : Fin 64) : Prop :=
  ∃ j < n, ∃ k < 8, (s.byteAt (s.i.toNat + j)).getLsbD (7 - k) = true ∧
    px.val = (cx + k) % 64 ∧ py.val = (cy + j) % 32

/-! ## Invariants -/

/-- Memory is in its canonical form. -/
abbrev MemoryCanonical (s : State) : Prop := s.mem.wf s.cfg.fontTable

/-- No PC the rules compute exceeds 0x10FE (10_state.md R26); a stacked return address is at most 0x1000
(41_flow.md R122), and a core that waits does so at an address it could fetch from. -/
def PcBounded (s : State) : Prop :=
  s.pc.toNat ≤ 0x10FE ∧ (∀ j : Fin 16, (s.stack[j.val]).toNat ≤ 0x1000) ∧
    ∀ x, s.run = .waiting x → s.pc.toNat ≤ 0xFFE

/-- The font table is immutable under FONT_WRITE_POLICY = fault (20_memory.md R57). -/
def FontIntact (s : State) : Prop :=
  s.cfg.fontWrite = .fault ∧ ∀ d : Fin 16, ∀ b : Fin 5, s.byteAt (5 * d.val + b.val) = (s.cfg.fontTable[d.val])[b.val]

/-- A halted core's PC is the faulting address, and its last report is the fault (60_exceptions.md R203). -/
def HaltReported (s : State) : Prop :=
  ∀ e pc word, s.run = .halted e pc word →
    s.pc = pc ∧ ∃ addr, s.reports.getLast? = some ⟨.fatal e, pc, word, addr⟩

/-- A core that waits or is halted has run a cycle since Init: Run leaves Running in a cycle alone (40_cycle.md R108). -/
def StartedUnlessRunning (s : State) : Prop := s.run ≠ .running → s.started = true

/-- The registers an instruction may write, by the table of 10_state.md R22; `overflow` is ADDI_VF = overflow. -/
def writtenRegs (overflow : Bool) : Instr → List Reg
  | .ldByte x _ | .addByte x _ | .ldReg x _ | .orReg x _ | .andReg x _ | .xorReg x _ => [x]
  | .addReg x _ | .subReg x _ | .shr x _ | .subn x _ | .shl x _ => [x, VF]
  | .rnd x _ | .ldVxDT x => [x]
  | .drw _ _ _ => [VF]
  | .addI _ => if overflow then [VF] else []
  | .loadRegs x => (List.finRange 16).filter (· ≤ x)
  | .cls | .ret | .jp _ | .call _ | .seByte _ _ | .sneByte _ _ | .seReg _ _ | .sneReg _ _ | .ldI _ | .jpV0 _
  | .skp _ | .sknp _ | .ldVxK _ | .ldDTVx _ | .ldSTVx _ | .ldF _ | .ldB _ | .storeRegs _ => []

end Sys2Proof.Machine
end

