-- ==== Sys2Proof/Certificates/Slice0/Obligations.lean ====
section
/-! DEFINITION. The statements for the provers, each from the numbered rules its docstring names. -/

open Sys2Proof Sys2Proof.Machine

/-! ## Reset, load and the boot order -/

/-- R38: every piece of state the rule's table lists has the table's value after initialisation. Run = Running and the
elapsed time 0 are the spec's decisions D31 and D3. -/
def Obligations.ResetStateAsSpecified : Prop := AtReset State.reset

/-- R240: Init sets all state at once to the values of R38, from any state, the halted ones too
(Run = Running and the elapsed time 0 by the decisions D31 and D3). -/
def Obligations.InitRestoresResetValues : Prop :=
  ∀ (s : State) (rest : List Input), s.inputs = .init :: rest → ∃ t, step s = .next t ∧ AtReset t

/-- R243: a ROM of at most 3583 bytes, the first one offered and before the first cycle, is written from 0x200 and
nothing else changes but the load_status output (before a load the model's value, log entry 14). -/
def Obligations.LoadRomWritesImage : Prop :=
  ∀ (s : State) (rom : List Byte) (rest : List Input), MemoryCanonical s → s.inputs = .load rom :: rest →
    s.started = false → s.loadStatus = .none → rom.length ≤ 3583 →
    ∃ t, step s = .next t ∧ (∀ j (h : j < rom.length), t.byteAt (0x200 + j) = rom[j]) ∧
      BytesSameOutside 0x200 rom.length s t ∧ t.loadStatus = .ok ∧ t.inputs = rest ∧
      SameExcept [.mem, .loadStatus, .inputs] s t

/-- R244: a longer ROM fails with RomTooLarge and writes no byte, and then no cycle runs: the CPU clock changes
nothing, and with no input left the core is stuck. -/
def Obligations.LoadRomTooLargeStartsNothing : Prop :=
  ∀ (s : State) (rom : List Byte) (rest : List Input), s.inputs = .load rom :: rest →
    s.started = false → s.loadStatus = .none → 3583 < rom.length →
    ∃ t, step s = .next t ∧ t.loadStatus = .romTooLarge ∧ t.inputs = rest ∧
      SameExcept [.loadStatus, .inputs] s t ∧
      (∀ more, step { t with inputs := .cpuClock :: more } = .next { t with inputs := more }) ∧
      (t.run = .running → step { t with inputs := [] } = .fault .loadFailed)

/-! ## Decoding -/

/-- 95_test_vectors.md E1, E2, E11, E12, E13, E14 and words of every format, by the bits of 30_encoding.md R82. -/
def Obligations.TableWordsDecode : Prop :=
  decodeWord 0x00E0 = .instr .cls ∧ decodeWord 0x00EE = .instr .ret ∧
  decodeWord 0x8AB6 = .instr (.shr 0xA 0xB) ∧ decodeWord 0xFA65 = .instr (.loadRegs 0xA) ∧
  decodeWord 0xD000 = .instr (.drw 0 0 0) ∧ decodeWord 0xBA00 = .instr (.jpV0 0xA00) ∧
  decodeWord 0x3FFE = .instr (.seByte 0xF 0xFE) ∧ decodeWord 0xE5A1 = .instr (.sknp 5) ∧
  decodeWord 0x0123 = .unknown 0x0123 ∧ decodeWord 0x5121 = .unknown 0x5121

/-- 30_encoding.md R82, R83, R87: for every instruction with every operand, decoding its word gives it back, and a word
that decodes to an instruction is that instruction's word. -/
def Obligations.DecodeEncodeAgree : Prop :=
  (∀ i : Instr, decodeWord (encode i) = .instr i) ∧
  (∀ (w : Word) (i : Instr), decodeWord w = .instr i → encode i = w)

/-- R84: a word decodes to an instruction where exactly one of the 34 rows matches it, and to Unknown(w) where none
does. -/
def Obligations.DecodeFollowsOpcodeMap : Prop :=
  ∀ w : Word,
    ((∃ i, decodeWord w = .instr i) ∧ (opcodeRows.filter (·.covers w)).length = 1) ∨
    (decodeWord w = .unknown w ∧ ∀ r ∈ opcodeRows, r.covers w = false)

/-- R85, which the spec derives: the words that decode to Unknown, family by family, by the value of their bits. -/
def Obligations.UnknownWordsAsListed : Prop :=
  ∀ w : Word, decodeWord w = .unknown w ↔
    (w.toNat / 4096 = 0 ∧ w ≠ 0x00E0 ∧ w ≠ 0x00EE) ∨
    (w.toNat / 4096 = 5 ∧ w.toNat % 16 ≠ 0) ∨
    (w.toNat / 4096 = 8 ∧ w.toNat % 16 ∈ [0x8, 0x9, 0xA, 0xB, 0xC, 0xD, 0xF]) ∨
    (w.toNat / 4096 = 9 ∧ w.toNat % 16 ≠ 0) ∨
    (w.toNat / 4096 = 0xE ∧ w.toNat % 256 ∉ [0x9E, 0xA1]) ∨
    (w.toNat / 4096 = 0xF ∧ w.toNat % 256 ∉ [0x07, 0x0A, 0x15, 0x18, 0x1E, 0x29, 0x33, 0x55, 0x65])

/-! ## The cycle -/

/-- 40_cycle.md R100 to R105: when a cycle may run and the two bytes at PC, most significant first, decode to an
instruction, a step is that instruction's meaning; around it the model marks that a cycle has run, and takes the
cpuClock input that started it (with no input left the core is clocked, log entry 1). -/
def Obligations.StepRunsDecodedInstruction : Prop :=
  ∀ (s : State) (i : Instr), CanCycle s → s.pc.toNat ≤ 0xFFE →
    decodeWord (wordOfBytes (s.byteAt s.pc.toNat) (s.byteAt (s.pc.toNat + 1))) = .instr i →
    (s.inputs = [] → step s = exec i { s with started := true }) ∧
    (∀ rest, s.inputs = .cpuClock :: rest → step s = exec i { s with inputs := rest, started := true })

/-- The same with an instruction word placed by `State.withFetchWord`: the very next step runs exactly it. -/
def Obligations.PlacedWordRunsNext : Prop :=
  ∀ (s : State) (w : Nat) (i : Instr), MemoryCanonical s → decodeTableWord 16 w = some i →
    step (s.withFetchWord 16 w) = exec i { s.withFetchWord 16 w with started := true }

/-- R106: a word that decodes to Unknown is reported with its PC, PC advances by 2, and nothing else changes. -/
def Obligations.UnknownIsReportedNoOp : Prop :=
  ∀ (s : State) (w : Word) (rest : List Input), CanCycle s → s.pc.toNat ≤ 0xFFE → s.inputs = .cpuClock :: rest →
    decodeWord (wordOfBytes (s.byteAt s.pc.toNat) (s.byteAt (s.pc.toNat + 1))) = .unknown w →
    ∃ t, step s = .next t ∧ t.pc = s.pc + 2 ∧ t.reports = s.reports ++ [⟨.unknownOpcode, s.pc, some w, none⟩] ∧
      SameExcept [.pc, .reports, .inputs, .started] s t

/-- R102: a cycle with PC above 0xFFE raises AddressOutOfRange with the PC, no word (the spec's decision D18) and the
PC as address, and nothing else happens. -/
def Obligations.FetchBeyondMemoryFaults : Prop :=
  ∀ (s : State) (rest : List Input), CanCycle s → 0xFFE < s.pc.toNat → s.inputs = .cpuClock :: rest →
    ∃ t, step s = .next t ∧
      Faulted { s with inputs := rest, started := true } t .addressOutOfRange none (some s.pc.toNat)

/-- R101: while the core waits or is halted, the CPU clock fetches and executes nothing (log entry 12). -/
def Obligations.NoCycleUnlessRunning : Prop :=
  ∀ (s : State) (rest : List Input), s.run ≠ .running → s.inputs = .cpuClock :: rest →
    step s = .next { s with inputs := rest }

/-- Every way a step stops: stuck with no input left while waiting (IMP8), halted (IMP15) or after a failed load (R244);
the shutdown (R227); and, by the model's choice (log entry 5), a ROM offered out of the boot order of R242. Otherwise a
step answers a next state. -/
def Obligations.StepStopsAsListed : Prop :=
  ∀ s : State,
    (∃ t, step s = .next t) ∨
    (s.inputs = [] ∧ (∃ x, s.run = .waiting x) ∧ step s = .fault .stuckWaiting) ∨
    (s.inputs = [] ∧ (∃ e pc w, s.run = .halted e pc w) ∧ step s = .fault .stuckHalted) ∨
    (s.inputs = [] ∧ s.run = .running ∧ s.loadStatus = .romTooLarge ∧ step s = .fault .loadFailed) ∨
    (∃ rest, s.inputs = .shutdown :: rest ∧ step s = .fault .shutdown) ∨
    (∃ rom rest, s.inputs = .load rom :: rest ∧ (s.started = true ∨ s.loadStatus ≠ .none) ∧
      step s = .refused .loadOutOfOrder)

/-! ## Jumps, calls and returns -/

/-- R120: RET pops the return address and leaves the entry (the spec's decision D28); with an empty stack it
underflows. -/
def Obligations.ReturnPopsAddress : Prop :=
  ∀ s : State,
    (s.sp ≠ 0 → ∃ t, exec .ret s = .next t ∧ t.pc = s.stack[s.sp.val] ∧ t.sp.val + 1 = s.sp.val ∧
      SameExcept [.pc, .sp] s t) ∧
    (s.sp = 0 → ∃ t, exec .ret s = .next t ∧ Faulted s t .stackUnderflow (some 0x00EE) none)

/-- R121 and R123: JP sets PC to nnn; JP V0 sets it to the unreduced sum with V0 (the spec's decision D5); nothing else
changes. -/
def Obligations.JumpsSetPc : Prop :=
  ∀ (s : State) (nnn : Addr),
    (∃ t, exec (.jp nnn) s = .next t ∧ t.pc.toNat = nnn.toNat ∧ SameExcept [.pc] s t) ∧
    (∃ t, exec (.jpV0 nnn) s = .next t ∧ t.pc.toNat = (s.getV 0).toNat + nnn.toNat ∧ SameExcept [.pc] s t)

/-- R122: CALL pre-increments SP, stores the address of the next instruction there and jumps; at SP = 15 it
overflows. -/
def Obligations.CallPushesReturnAddress : Prop :=
  ∀ (s : State) (nnn : Addr),
    (s.sp ≠ 15 → ∃ t, exec (.call nnn) s = .next t ∧ t.pc.toNat = nnn.toNat ∧ t.sp.val = s.sp.val + 1 ∧
      t.stack[t.sp.val] = s.pc + 2 ∧ (∀ j : Fin 16, j ≠ t.sp → t.stack[j.val] = s.stack[j.val]) ∧
      SameExcept [.pc, .sp, .stack] s t) ∧
    (s.sp = 15 → ∃ t, exec (.call nnn) s = .next t ∧
      Faulted s t .stackOverflow (some (BitVec.ofNat 16 (0x2000 + nnn.toNat))) none)

/-- 95_test_vectors.md S8: "PC after RET equals the instruction address immediately following the original CALL",
and SP is back where it was. -/
def Obligations.ReturnUndoesCall : Prop :=
  ∀ (s : State) (nnn : Addr), s.sp ≠ 15 → ∃ t u, exec (.call nnn) s = .next t ∧ exec .ret t = .next u ∧
    u.pc = s.pc + 2 ∧ u.sp = s.sp ∧ SameExcept [.pc, .stack] s u

/-! ## Skips -/

/-- R131 to R134: SE skips where Vx equals the byte or Vy, SNE where it differs; a skip adds 4 to PC, no skip 2, and
nothing else changes. -/
def Obligations.SkipsOnComparison : Prop :=
  ∀ (s : State) (x y : Reg) (kk : Byte) (i : Instr) (skip : Prop),
    (i = .seByte x kk ∧ (skip ↔ s.getV x = kk)) ∨ (i = .sneByte x kk ∧ (skip ↔ s.getV x ≠ kk)) ∨
      (i = .seReg x y ∧ (skip ↔ s.getV x = s.getV y)) ∨ (i = .sneReg x y ∧ (skip ↔ s.getV x ≠ s.getV y)) →
    ∃ t, exec i s = .next t ∧ (skip → t.pc = s.pc + 4) ∧ (¬ skip → t.pc = s.pc + 2) ∧ SameExcept [.pc] s t

/-- R135 and R136, with R137 for a key number above 0xF: SKP skips where the tested key is pressed, SKNP where it is
not, and the key stays as it is; KEY_INDEX_POLICY = fault faults on a key number above 0xF (the spec's decision
D12). -/
def Obligations.SkipsOnKey : Prop :=
  ∀ (s : State) (x : Reg) (down : Bool),
    ((∃ k : Key, (s.getV x).toNat = k.val ∧ down = s.keyDown k) ∨
      (0xF < (s.getV x).toNat ∧ s.cfg.keyIndex = .notPressed ∧ down = false) ∨
      (0xF < (s.getV x).toNat ∧ s.cfg.keyIndex = .lowNibble ∧
        ∃ k : Key, (s.getV x).toNat % 16 = k.val ∧ down = s.keyDown k) →
      (∃ t, exec (.skp x) s = .next t ∧ t.pc = (if down = true then s.pc + 4 else s.pc + 2) ∧ SameExcept [.pc] s t) ∧
      (∃ t, exec (.sknp x) s = .next t ∧ t.pc = (if down = true then s.pc + 2 else s.pc + 4) ∧ SameExcept [.pc] s t)) ∧
    (0xF < (s.getV x).toNat ∧ s.cfg.keyIndex = .fault →
      (∃ t, exec (.skp x) s = .next t ∧ Faulted s t .addressOutOfRange
        (some (BitVec.ofNat 16 (0xE09E + 256 * x.val))) (some (s.getV x).toNat)) ∧
      (∃ t, exec (.sknp x) s = .next t ∧ Faulted s t .addressOutOfRange
        (some (BitVec.ofNat 16 (0xE0A1 + 256 * x.val))) (some (s.getV x).toNat)))

/-! ## Register loads and arithmetic -/

/-- R140 and R141: LD writes kk; ADD writes the sum modulo 256 and no flag. -/
def Obligations.LoadAndAddByte : Prop :=
  ∀ (s : State) (x : Reg) (kk : Byte),
    (∃ t, exec (.ldByte x kk) s = .next t ∧ t.getV x = kk ∧ t.pc = s.pc + 2 ∧
      RegsSameExcept [x] s t ∧ SameExcept [.v, .pc] s t) ∧
    (∃ t, exec (.addByte x kk) s = .next t ∧ (t.getV x).toNat = ((s.getV x).toNat + kk.toNat) % 256 ∧
      t.pc = s.pc + 2 ∧ RegsSameExcept [x] s t ∧ SameExcept [.v, .pc] s t)

/-- R142 to R145: the copy and the three bitwise operations write Vx alone; VF is not reset (the spec's
decision D10). -/
def Obligations.CopyAndBitwise : Prop :=
  ∀ (s : State) (x y : Reg) (i : Instr) (r : Byte),
    (i = .ldReg x y ∧ r = s.getV y) ∨ (i = .orReg x y ∧ r = s.getV x ||| s.getV y) ∨
      (i = .andReg x y ∧ r = s.getV x &&& s.getV y) ∨ (i = .xorReg x y ∧ r = s.getV x ^^^ s.getV y) →
    ∃ t, exec i s = .next t ∧ t.getV x = r ∧ t.pc = s.pc + 2 ∧ RegsSameExcept [x] s t ∧ SameExcept [.v, .pc] s t

/-- R146: ADD Vx, Vy writes the sum modulo 256 and then VF = carry, so that with x = F the carry stands. -/
def Obligations.AddSetsCarryLast : Prop :=
  ∀ (s : State) (x y : Reg), ∃ t, exec (.addReg x y) s = .next t ∧
    t.getV VF = (if (s.getV x).toNat + (s.getV y).toNat > 255 then 1 else 0) ∧
    (x ≠ VF → (t.getV x).toNat = ((s.getV x).toNat + (s.getV y).toNat) % 256) ∧
    t.pc = s.pc + 2 ∧ RegsSameExcept [x, VF] s t ∧ SameExcept [.v, .pc] s t

/-- R147 and R149: SUB and SUBN write the residue of the difference and then VF = no-borrow. -/
def Obligations.SubtractSetsNoBorrowLast : Prop :=
  ∀ (s : State) (x y : Reg) (i : Instr) (a b : Byte),
    (i = .subReg x y ∧ a = s.getV x ∧ b = s.getV y) ∨ (i = .subn x y ∧ a = s.getV y ∧ b = s.getV x) →
    ∃ t, exec i s = .next t ∧ t.getV VF = (if a.toNat ≥ b.toNat then 1 else 0) ∧
      (x ≠ VF → ((t.getV x).toNat : Int) = ((a.toNat : Int) - b.toNat) % 256) ∧
      t.pc = s.pc + 2 ∧ RegsSameExcept [x, VF] s t ∧ SameExcept [.v, .pc] s t

/-- R148 and R150: SHR and SHL shift Vx (Vy under SHIFT_SOURCE = VY, the spec's decision D9) by one and then VF =
the bit shifted out. -/
def Obligations.ShiftsByOne : Prop :=
  ∀ (s : State) (x y : Reg) (b : Byte),
    b = (if s.cfg.shiftSource = .vx then s.getV x else s.getV y) →
    (∃ t, exec (.shr x y) s = .next t ∧ (t.getV VF).toNat = b.toNat % 2 ∧ (x ≠ VF → (t.getV x).toNat = b.toNat / 2) ∧
      t.pc = s.pc + 2 ∧ RegsSameExcept [x, VF] s t ∧ SameExcept [.v, .pc] s t) ∧
    (∃ t, exec (.shl x y) s = .next t ∧ (t.getV VF).toNat = b.toNat / 128 ∧
      (x ≠ VF → (t.getV x).toNat = 2 * b.toNat % 256) ∧
      t.pc = s.pc + 2 ∧ RegsSameExcept [x, VF] s t ∧ SameExcept [.v, .pc] s t)

/-- R151: RND writes a byte of the rnd input under the mask kk; where the host has put bytes on the port it is the
oldest of them, and each execution takes its own. Nothing is said of a byte the host has not given. -/
def Obligations.RandomByteUnderMask : Prop :=
  ∀ (s : State) (x : Reg) (kk : Byte), ∃ t r, exec (.rnd x kk) s = .next t ∧ t.getV x = r &&& kk ∧
    (∀ b rest, s.rndIn = b :: rest → r = b ∧ t.rndIn = rest) ∧ t.rndCount = s.rndCount + 1 ∧
    t.pc = s.pc + 2 ∧ RegsSameExcept [x] s t ∧ SameExcept [.v, .pc, .rnd] s t

/-! ## Display -/

/-- R161: CLS clears every pixel; VF and the rest stay. -/
def Obligations.ClearClearsEveryPixel : Prop :=
  ∀ s : State, ∃ t, exec .cls s = .next t ∧ (∀ py px, t.disp.pixel py px = false) ∧ t.pc = s.pc + 2 ∧
    SameExcept [.disp, .pc] s t

/-- R162 to R165: where the sprite lies in memory, DRW flips exactly the pixels its set bits land on, each wrapped on
its own, and VF is 1 exactly when one of them was set. The bit order is the spec's own assumption (R163, D14; log
entry 11). -/
def Obligations.DrawXorsSprite : Prop :=
  ∀ (s : State) (x y : Reg) (n : Fin 16), (n.val = 0 ∨ s.i.toNat + n.val ≤ 0x1000) →
    ∃ t, exec (.drw x y n) s = .next t ∧
      (∀ py px, t.disp.pixel py px = true ↔
        ¬(s.disp.pixel py px = true ↔ SpriteCovers s (s.getV x).toNat (s.getV y).toNat n.val py px)) ∧
      ((∃ py px, SpriteCovers s (s.getV x).toNat (s.getV y).toNat n.val py px ∧ s.disp.pixel py px = true) →
        t.getV VF = 1) ∧
      ((∀ py px, SpriteCovers s (s.getV x).toNat (s.getV y).toNat n.val py px → s.disp.pixel py px = false) →
        t.getV VF = 0) ∧
      t.pc = s.pc + 2 ∧ RegsSameExcept [VF] s t ∧ SameExcept [.v, .disp, .pc] s t

/-- R166 (the spec's decision D25): DRW with n = 0 cannot fault, whatever I is; it changes no pixel and writes
VF = 0. -/
def Obligations.DrawEmptySprite : Prop :=
  ∀ (s : State) (x y : Reg), ∃ t, exec (.drw x y 0) s = .next t ∧ t.getV VF = 0 ∧ t.pc = s.pc + 2 ∧
    RegsSameExcept [VF] s t ∧ SameExcept [.v, .pc] s t

/-- R55 and R162's Exceptions clause: a sprite that leaves memory faults with the address of its last byte, and no
pixel and no VF is written. -/
def Obligations.DrawBeyondMemoryFaults : Prop :=
  ∀ (s : State) (x y : Reg) (n : Fin 16), 1 ≤ n.val → 0xFFF < s.i.toNat + n.val - 1 →
    ∃ t, exec (.drw x y n) s = .next t ∧ Faulted s t .addressOutOfRange
      (some (BitVec.ofNat 16 (0xD000 + 256 * x.val + 16 * y.val + n.val))) (some (s.i.toNat + n.val - 1))

/-- 95_test_vectors.md S6: the same non-empty sprite drawn twice at the same place, with coordinate registers other
than VF, leaves the display as it was, and the second draw reports a collision unless the first one cleared every
pixel it touched. -/
def Obligations.DrawTwiceRestoresDisplay : Prop :=
  ∀ (s : State) (x y : Reg) (n : Fin 16), x ≠ VF → y ≠ VF → s.i.toNat + n.val ≤ 0x1000 →
    ∃ t u, exec (.drw x y n) s = .next t ∧ exec (.drw x y n) t = .next u ∧ u.disp = s.disp ∧
      (∀ py px, SpriteCovers s (s.getV x).toNat (s.getV y).toNat n.val py px → s.disp.pixel py px = false →
        u.getV VF = 1)

/-! ## Timers and keys -/

/-- R170, R173 and R174: LD Vx, DT reads the delay timer; LD DT and LD ST set the timers from Vx. Writing DT
leaves the elapsed time (the spec's decision D3). -/
def Obligations.TimerTransfers : Prop :=
  ∀ (s : State) (x : Reg),
    (∃ t, exec (.ldVxDT x) s = .next t ∧ t.getV x = s.dt ∧ t.pc = s.pc + 2 ∧ RegsSameExcept [x] s t ∧
      SameExcept [.v, .pc] s t) ∧
    (∃ t, exec (.ldDTVx x) s = .next t ∧ t.dt = s.getV x ∧ t.pc = s.pc + 2 ∧ SameExcept [.dt, .pc] s t) ∧
    (∃ t, exec (.ldSTVx x) s = .next t ∧ t.st = s.getV x ∧ t.pc = s.pc + 2 ∧ SameExcept [.st, .pc] s t)

/-- R171: Fx0A suspends the core with PC still at it, whatever keys are pressed (the spec's decision D13). -/
def Obligations.KeyWaitSuspends : Prop :=
  ∀ (s : State) (x : Reg), ∃ t, exec (.ldVxK x) s = .next t ∧ t.run = .waiting x ∧ SameExcept [.run] s t

/-- R172 (the spec's decision D13): the first key press delivered while waiting completes Fx0A: Vx is the key, the
press is consumed, PC advances and the core runs. -/
def Obligations.KeyPressCompletesWait : Prop :=
  ∀ (s : State) (x : Reg) (k : Key) (rest : List Input), s.run = .waiting x → s.inputs = .keyEvent k true :: rest →
    ∃ t, step s = .next t ∧ (t.getV x).toNat = k.val ∧ t.keyDown k = false ∧ t.pc = s.pc + 2 ∧ t.run = .running ∧
      t.inputs = rest ∧ RegsSameExcept [x] s t ∧ (∀ q, q ≠ k → t.keyDown q = s.keyDown q) ∧
      SameExcept [.v, .keys, .pc, .run, .inputs] s t

/-- R221: every other key event of a core that is not halted sets the key and nothing else. -/
def Obligations.KeyEventSetsKey : Prop :=
  ∀ (s : State) (k : Key) (p : Bool) (rest : List Input), s.inputs = .keyEvent k p :: rest →
    (s.run = .running ∨ (p = false ∧ ∃ x, s.run = .waiting x)) →
    ∃ t, step s = .next t ∧ t.keyDown k = p ∧ (∀ q, q ≠ k → t.keyDown q = s.keyDown q) ∧ t.inputs = rest ∧
      SameExcept [.keys, .inputs] s t

/-- R210: a tick takes 1 from each timer that is above 0 and changes nothing else, also while the core waits; while it
is halted a tick changes nothing (log entry 12). -/
def Obligations.TickCountsTimersDown : Prop :=
  ∀ (s : State) (rest : List Input), s.inputs = .timerClock :: rest →
    ((∀ e pc w, s.run ≠ .halted e pc w) → ∃ t, step s = .next t ∧ t.dt.toNat = s.dt.toNat - 1 ∧
      t.st.toNat = s.st.toNat - 1 ∧ t.inputs = rest ∧ SameExcept [.dt, .st, .inputs] s t) ∧
    (∀ e pc w, s.run = .halted e pc w → step s = .next { s with inputs := rest })

/-- 95_test_vectors.md S9, K3: n ticks with no write between them bring a timer down by n, to 0 and never below. -/
def Obligations.TicksStopAtZero : Prop :=
  ∀ (n : Nat) (s : State) (rest : List Input), s.inputs = List.replicate n .timerClock ++ rest →
    (∀ e pc w, s.run ≠ .halted e pc w) →
    ∃ t, (Sys2Proof.core.run n s : Host.Outcome State Fault Refusal) = .next t ∧ t.dt.toNat = s.dt.toNat - n ∧
      t.st.toNat = s.st.toNat - n ∧ t.inputs = rest ∧ SameExcept [.dt, .st, .inputs] s t

/-- R212, the timed refinement in the model's units of time (log entry 4): however the wall-clock time is cut into
pieces, the number of ticks since the elapsed time was 0 is the whole number of 1/60 s in it; and in n periods of the
CPU cycle clock (R213) it is floor(60 * n / CPU_HZ), CPU_HZ being num / den. -/
def Obligations.TicksAreFloorOfTime : Prop :=
  ∀ (s : State) (rest : List Input), s.elapsed = 0 → (∀ e pc w, s.run ≠ .halted e pc w) →
    (∀ ds : List Nat, s.inputs = ds.map .elapse ++ rest →
      ∃ t, (Sys2Proof.core.run ds.length s : Host.Outcome State Fault Refusal) = .next t ∧
        t.dt.toNat = s.dt.toNat - ds.sum / s.unitsPerTick ∧ t.st.toNat = s.st.toNat - ds.sum / s.unitsPerTick ∧
        t.elapsed = ds.sum % s.unitsPerTick) ∧
    (∀ n : Nat, s.inputs = List.replicate n .cpuPeriod ++ rest →
      ∃ t, (Sys2Proof.core.run n s : Host.Outcome State Fault Refusal) = .next t ∧
        t.dt.toNat = s.dt.toNat - 60 * n * s.cfg.cpuHz.den / s.cfg.cpuHz.num ∧
        t.st.toNat = s.st.toNat - 60 * n * s.cfg.cpuHz.den / s.cfg.cpuHz.num ∧
        t.elapsed = 60 * n * s.cfg.cpuHz.den % s.cfg.cpuHz.num)

/-! ## The index register and memory transfers -/

/-- R180, R181 and R182: the three writes of I; ADD I writes VF under ADDI_VF = overflow alone (the spec's decision
D6), and LD F takes a digit above 0xF by FONT_DIGIT_POLICY (D7). -/
def Obligations.WritesIndex : Prop :=
  ∀ (s : State) (nnn : Addr) (x : Reg),
    (∃ t, exec (.ldI nnn) s = .next t ∧ t.i = nnn ∧ t.pc = s.pc + 2 ∧ SameExcept [.i, .pc] s t) ∧
    (∃ t, exec (.addI x) s = .next t ∧ t.i.toNat = (s.i.toNat + (s.getV x).toNat) % 0x1000 ∧ t.pc = s.pc + 2 ∧
      (s.cfg.addiVf = .none → RegsSameExcept [] s t) ∧
      (s.cfg.addiVf = .overflow → RegsSameExcept [VF] s t ∧
        t.getV VF = (if s.i.toNat + (s.getV x).toNat > 0xFFF then 1 else 0)) ∧
      SameExcept [.i, .v, .pc] s t) ∧
    (∃ t, exec (.ldF x) s = .next t ∧
      (s.cfg.fontDigit = .lowNibble → t.i.toNat = 5 * ((s.getV x).toNat % 16)) ∧
      (s.cfg.fontDigit = .full → t.i.toNat = 5 * (s.getV x).toNat) ∧ t.pc = s.pc + 2 ∧ SameExcept [.i, .pc] s t)

/-- R183: LD B stores the three decimal digits at I, I + 1 and I + 2, where the store is allowed. -/
def Obligations.StoresDecimalDigits : Prop :=
  ∀ (s : State) (x : Reg), MemoryCanonical s → StoreAllowed s s.i.toNat 3 →
    ∃ t, exec (.ldB x) s = .next t ∧ (t.byteAt s.i.toNat).toNat = (s.getV x).toNat / 100 ∧
      (t.byteAt (s.i.toNat + 1)).toNat = (s.getV x).toNat / 10 % 10 ∧
      (t.byteAt (s.i.toNat + 2)).toNat = (s.getV x).toNat % 10 ∧
      BytesSameOutside s.i.toNat 3 s t ∧ t.pc = s.pc + 2 ∧ SameExcept [.mem, .pc] s t

/-- R184: LD [I], Vx stores V0 to Vx from I on, where the store is allowed; I is unchanged. -/
def Obligations.StoresRegisters : Prop :=
  ∀ (s : State) (x : Reg), MemoryCanonical s → StoreAllowed s s.i.toNat (x.val + 1) →
    ∃ t, exec (.storeRegs x) s = .next t ∧ (∀ r : Reg, r ≤ x → t.byteAt (s.i.toNat + r.val) = s.getV r) ∧
      BytesSameOutside s.i.toNat (x.val + 1) s t ∧ t.pc = s.pc + 2 ∧ SameExcept [.mem, .pc] s t

/-- R56 and R57: a store that leaves memory faults with the address of its last byte, and a store into the font table,
under FONT_WRITE_POLICY = fault (the spec's decision D11), with its first; no byte is written. -/
def Obligations.ForbiddenStoresFault : Prop :=
  ∀ (s : State) (x : Reg) (i : Instr) (n : Nat) (w : Word),
    (i = .ldB x ∧ n = 3 ∧ w = BitVec.ofNat 16 (0xF033 + 256 * x.val)) ∨
      (i = .storeRegs x ∧ n = x.val + 1 ∧ w = BitVec.ofNat 16 (0xF055 + 256 * x.val)) →
    (0xFFF < s.i.toNat + n - 1 →
      ∃ t, exec i s = .next t ∧ Faulted s t .addressOutOfRange (some w) (some (s.i.toNat + n - 1))) ∧
    (s.cfg.fontWrite = .fault → s.i.toNat ≤ 0x04F →
      ∃ t, exec i s = .next t ∧ Faulted s t .addressOutOfRange (some w) (some s.i.toNat))

/-- R185: LD Vx, [I] loads V0 to Vx from I on; I and memory are unchanged (D8). A block that leaves memory faults with
the address of its last byte, and no register is written. -/
def Obligations.LoadsRegisters : Prop :=
  ∀ (s : State) (x : Reg),
    (s.i.toNat + x.val ≤ 0xFFF → ∃ t, exec (.loadRegs x) s = .next t ∧
      (∀ r : Reg, r ≤ x → t.getV r = s.byteAt (s.i.toNat + r.val)) ∧ (∀ r : Reg, x < r → t.getV r = s.getV r) ∧
      t.pc = s.pc + 2 ∧ SameExcept [.v, .pc] s t) ∧
    (0xFFF < s.i.toNat + x.val → ∃ t, exec (.loadRegs x) s = .next t ∧ Faulted s t .addressOutOfRange
      (some (BitVec.ofNat 16 (0xF065 + 256 * x.val))) (some (s.i.toNat + x.val)))

/-- R64 and R251: a word stored by Fx55 at the next instruction's address is what the next fetch reads. -/
def Obligations.StoredCodeIsFetched : Prop :=
  ∀ (s : State) (x : Reg), MemoryCanonical s → 1 ≤ x.val → StoreAllowed s s.i.toNat (x.val + 1) →
    s.i.toNat = s.pc.toNat + 2 →
    ∃ t, exec (.storeRegs x) s = .next t ∧ t.pc.toNat = s.i.toNat ∧ t.fetchWord = wordOfBytes (s.getV 0) (s.getV 1)

/-! ## Rules about every instruction -/

/-- Every instruction of the table answers a next state, from every state: none stops, and none is refused. -/
def Obligations.EveryInstructionAnswersNext : Prop := ∀ (i : Instr) (s : State), ∃ t, exec i s = .next t

/-- R203 and R205: a fault belongs to the instruction that raised it and is precise. From a core that is not halted, an
instruction that leaves it halted leaves every other part of the state exactly as it was, and records its own PC and
word (the encoding of the instruction, log entry 10). -/
def Obligations.FaultsArePrecise : Prop :=
  ∀ (i : Instr) (s t : State) (e : FatalFault) (pc : Word) (w : Option Word),
    (∀ e pc w, s.run ≠ .halted e pc w) → exec i s = .next t → t.run = .halted e pc w →
    pc = s.pc ∧ w = some (encode i) ∧ ∃ addr, Faulted s t e (some (encode i)) addr

/-- R22, which the spec derives: an instruction changes no general register but those its row of the table lists. -/
def Obligations.RegistersWrittenAsListed : Prop :=
  ∀ (i : Instr) (s t : State), exec i s = .next t →
    RegsSameExcept (writtenRegs (decide (s.cfg.addiVf = .overflow)) i) s t

/-- R160: the display buffer is written only by CLS and DRW. -/
def Obligations.OnlyDisplayInstructionsDraw : Prop :=
  ∀ (i : Instr) (s t : State), exec i s = .next t → t.disp ≠ s.disp → i = .cls ∨ ∃ x y n, i = .drw x y n

/-- R59, which the spec derives: memory is written only by Fx33 and Fx55, and only from I on. -/
def Obligations.OnlyStoresWriteMemory : Prop :=
  ∀ (i : Instr) (s t : State) (a : Nat), MemoryCanonical s → exec i s = .next t → t.byteAt a ≠ s.byteAt a →
    (∃ x, i = .ldB x ∧ s.i.toNat ≤ a ∧ a ≤ s.i.toNat + 2) ∨
    (∃ x, i = .storeRegs x ∧ s.i.toNat ≤ a ∧ a ≤ s.i.toNat + x.val)

/-- R27 to R31, R34 and R101: which instructions change I, SP, the call stack and the timers; none changes the keypad,
and none but Fx0A suspends the core. -/
def Obligations.ControlStateWrittenAsListed : Prop :=
  ∀ (i : Instr) (s t : State), exec i s = .next t →
    (t.i ≠ s.i → (∃ nnn, i = .ldI nnn) ∨ (∃ x, i = .addI x) ∨ ∃ x, i = .ldF x) ∧
    (t.sp ≠ s.sp → i = .ret ∨ ∃ nnn, i = .call nnn) ∧ (t.stack ≠ s.stack → ∃ nnn, i = .call nnn) ∧
    (t.dt ≠ s.dt → ∃ x, i = .ldDTVx x) ∧ (t.st ≠ s.st → ∃ x, i = .ldSTVx x) ∧ t.keys = s.keys ∧
    (∀ x, s.run = .running → t.run = .waiting x → i = .ldVxK x)

/-! ## Invariants and rules about every step -/

/-- The state after reset meets every invariant below. -/
def Obligations.ResetMeetsInvariants : Prop :=
  MemoryCanonical State.reset ∧ PcBounded State.reset ∧ FontIntact State.reset ∧ HaltReported State.reset ∧
    StartedUnlessRunning State.reset

/-- Every step keeps memory in its canonical form (log entry 8): addresses rising and in 0x000 to 0xFFF (R50). -/
def Obligations.StepKeepsMemoryCanonical : Prop :=
  ∀ s t : State, MemoryCanonical s → step s = .next t → MemoryCanonical t

/-- R26, which the spec derives: no PC a rule computes is above 0x10FE. Every step keeps that, with the bound of the
stacked return addresses and of the address a waiting core holds. -/
def Obligations.StepKeepsPcBounded : Prop := ∀ s t : State, PcBounded s → step s = .next t → PcBounded t

/-- R57 (the spec's decision D11): under FONT_WRITE_POLICY = fault every step leaves the font table as it is. -/
def Obligations.StepKeepsFontIntact : Prop :=
  ∀ s t : State, MemoryCanonical s → FontIntact s → step s = .next t → FontIntact t

/-- R203: a halted core holds the faulting PC, and its last report is the fault it halted on; every step keeps that. -/
def Obligations.StepKeepsHaltReported : Prop := ∀ s t : State, HaltReported s → step s = .next t → HaltReported t

/-- A core waits or is halted only after a cycle since Init (40_cycle.md R108): every step keeps that. -/
def Obligations.StepKeepsStartedUnlessRunning : Prop :=
  ∀ s t : State, StartedUnlessRunning s → step s = .next t → StartedUnlessRunning t

/-- No step changes an implementation parameter of R6 (log entry 2), and the report channel of R207 only grows: every
step keeps what was reported (log entry 6 for Init). -/
def Obligations.StepKeepsParametersAndReports : Prop :=
  ∀ s t : State, step s = .next t → t.cfg = s.cfg ∧ ∃ more, t.reports = s.reports ++ more

/-- R214: a waiting core goes on waiting for the same register unless a key press or Init moves it on, and until then
only the timers, their elapsed time and the keypad change, with the model's own input fields. -/
def Obligations.WaitEndsOnlyByKeyPress : Prop :=
  ∀ (s t : State) (x : Reg), s.run = .waiting x → StartedUnlessRunning s → step s = .next t →
    (∃ rest, s.inputs = .init :: rest) ∨ (∃ k rest, s.inputs = .keyEvent k true :: rest) ∨
    SameExcept [.dt, .st, .keys, .elapsed, .inputs, .rnd] s t

/-- R203 and R246 (the spec's decision D19): Halted is final until Init: of a halted core that has run a cycle, no
step changes anything but the model's own input fields. -/
def Obligations.HaltedIsFinal : Prop :=
  ∀ (s t : State) (e : FatalFault) (pc : Word) (w : Option Word), s.run = .halted e pc w → StartedUnlessRunning s →
    step s = .next t → (∃ rest, s.inputs = .init :: rest) ∨ SameExcept [.inputs, .rnd] s t

/-- R222 and R223, R227: reading the frame changes nothing and gives the display; the tone sounds exactly while ST is
above 0; shutdown ends the run (as a stop of the step, log entry 9). -/
def Obligations.OutputsAndShutdown : Prop :=
  ∀ (s : State) (rest : List Input),
    s.frameOut = s.disp ∧ (s.toneOut = true ↔ 0 < s.st.toNat) ∧
    (s.inputs = .frame :: rest → step s = .next { s with inputs := rest }) ∧
    (s.inputs = .shutdown :: rest → step s = .fault .shutdown)
end

