-- ==== Sys2Proof/Laws/Decode.lean ====
section
/-! SUPPORT. The value of an encoded word, its fields, and its bits under a row's mask (30_encoding.md R81 to R84). -/

namespace Sys2Proof

/-! ## Values of the formats -/

theorem formatA_toNat {code : Nat} (h : code + 4096 ≤ 65536) (nnn : Addr) :
    (formatA code nnn).toNat = code + nnn.toNat := by
  have := nnn.isLt
  simp only [formatA, BitVec.toNat_ofNat]
  omega

theorem formatXK_toNat {code : Nat} (h : code + 4096 ≤ 65536) (x : Reg) (kk : Byte) :
    (formatXK code x kk).toNat = code + 256 * x.val + kk.toNat := by
  have := kk.isLt
  simp only [formatXK, BitVec.toNat_ofNat]
  omega

theorem formatXY_toNat {code : Nat} (h : code + 4081 ≤ 65536) (x y : Reg) :
    (formatXY code x y).toNat = code + 256 * x.val + 16 * y.val := by
  simp only [formatXY, BitVec.toNat_ofNat]
  omega

theorem formatXYN_toNat {code : Nat} (h : code + 4096 ≤ 65536) (x y : Reg) (n : Fin 16) :
    (formatXYN code x y n).toNat = code + 256 * x.val + 16 * y.val + n.val := by
  simp only [formatXYN, BitVec.toNat_ofNat]
  omega

theorem formatX_toNat {code : Nat} (h : code + 3841 ≤ 65536) (x : Reg) :
    (formatX code x).toNat = code + 256 * x.val := by
  simp only [formatX, BitVec.toNat_ofNat]
  omega

/-! ## Fields, by the value of the word -/

theorem fieldX_eq {w : Word} {x : Reg} (h : w.toNat / 256 % 16 = x.val) : fieldX w = x := Fin.ext h

theorem fieldY_eq {w : Word} {y : Reg} (h : w.toNat / 16 % 16 = y.val) : fieldY w = y := Fin.ext h

theorem fieldN_eq {w : Word} {n : Fin 16} (h : w.toNat % 16 = n.val) : fieldN w = n := Fin.ext h

theorem fieldKk_eq {w : Word} {kk : Byte} (h : w.toNat % 256 = kk.toNat) : fieldKk w = kk :=
  BitVec.eq_of_toNat_eq (by simpa [fieldKk] using h)

theorem fieldNnn_eq {w : Word} {nnn : Addr} (h : w.toNat % 4096 = nnn.toNat) : fieldNnn w = nnn :=
  BitVec.eq_of_toNat_eq (by simpa [fieldNnn] using h)

/-! ## Bytes of a word (R54) -/

theorem wordOfBytes_toNat (hi lo : Byte) : (wordOfBytes hi lo).toNat = 256 * hi.toNat + lo.toNat := by
  have h := lo.isLt
  rw [wordOfBytes, BitVec.toNat_append, ← Nat.shiftLeft_add_eq_or_of_lt h, Nat.shiftLeft_eq]
  omega

/-- A word is put together again from its two bytes. -/
@[simp] theorem wordOfBytes_highByte_lowByte (w : Word) : wordOfBytes (highByte w) (lowByte w) = w := by
  apply BitVec.eq_of_toNat_eq
  have := w.isLt
  rw [wordOfBytes_toNat]
  simp only [highByte, lowByte, BitVec.toNat_ofNat, BitVec.toNat_setWidth]
  omega

/-- The decoder on the two bytes of a word is the decoder on the word. -/
theorem decodeBytes_of_word (w : Word) (rest : List Byte) :
    decodeBytes (highByte w :: lowByte w :: rest) = .ok (decodeWord w, rest) := by
  simp [decodeBytes]

/-- What `decodeTableWord` reads is what the decoder reads. -/
theorem decodeTableWord_eq_some {w : Nat} {i : Instr} (h : decodeTableWord 16 w = some i) :
    decodeWord (BitVec.ofNat 16 (w % 2 ^ 16)) = .instr i := by
  unfold decodeTableWord at h
  simp only [decodeBytes_of_word] at h
  split at h <;> simp_all

/-! ## Bits under a mask -/

/-- The mask F000 keeps the family. -/
theorem and_family_mask (w : Word) : w &&& 0xF000#16 = BitVec.ofNat 16 (w.toNat / 4096 * 4096) := by
  apply BitVec.eq_of_toNat_eq
  have hw := w.isLt
  have e : (0xF000 : Nat) = 15 <<< 12 := rfl
  rw [BitVec.toNat_and, BitVec.toNat_ofNat, BitVec.toNat_ofNat]
  apply Nat.eq_of_testBit_eq
  intro j
  rw [Nat.mod_eq_of_lt (by omega : w.toNat / 4096 * 4096 < 2 ^ 16), Nat.mod_eq_of_lt (by omega : 0xF000 < 2 ^ 16)]
  rw [show (4096 : Nat) = 2 ^ 12 from rfl, ← Nat.shiftRight_eq_div_pow, ← Nat.shiftLeft_eq]
  simp only [Nat.testBit_and, Nat.testBit_shiftLeft, Nat.testBit_shiftRight, e]
  by_cases hj : 12 ≤ j
  · have hk : 12 + (j - 12) = j := by omega
    simp only [hj, decide_true, Bool.true_and, hk]
    by_cases hj' : j < 16
    · have : Nat.testBit 15 (j - 12) = true := by
        have : j - 12 = 0 ∨ j - 12 = 1 ∨ j - 12 = 2 ∨ j - 12 = 3 := by omega
        rcases this with h | h | h | h <;> rw [h] <;> rfl
      simp [this]
    · have : w.toNat.testBit j = false :=
        Nat.testBit_lt_two_pow (lt_of_lt_of_le hw (Nat.pow_le_pow_right (by omega) (by omega)))
      simp [this]
  · simp [hj]

/-- The mask of a row keeps the family and, below it, what the sub-mask keeps. -/
theorem and_mask_eq {w : Word} {sub : Nat} (hs : sub < 4096) (code : Nat) (hc : code < 65536)
    (hf : w.toNat / 4096 = code / 4096) (hlow : w.toNat % 4096 &&& sub = code % 4096) :
    w &&& BitVec.ofNat 16 (0xF000 + sub) = BitVec.ofNat 16 code := by
  have hsplit : BitVec.ofNat 16 (0xF000 + sub) = 0xF000#16 ||| BitVec.ofNat 16 sub := by
    apply BitVec.eq_of_toNat_eq
    rw [BitVec.toNat_or, BitVec.toNat_ofNat, BitVec.toNat_ofNat, BitVec.toNat_ofNat,
      Nat.mod_eq_of_lt (by omega), Nat.mod_eq_of_lt (by omega : 0xF000 < 2 ^ 16), Nat.mod_eq_of_lt (by omega)]
    exact Nat.shiftLeft_add_eq_or_of_lt (a := 15) (i := 12) hs
  have hlow' : w &&& BitVec.ofNat 16 sub = BitVec.ofNat 16 (code % 4096) := by
    apply BitVec.eq_of_toNat_eq
    rw [BitVec.toNat_and, BitVec.toNat_ofNat, BitVec.toNat_ofNat, Nat.mod_eq_of_lt (by omega : sub < 2 ^ 16),
      Nat.mod_eq_of_lt (by omega : code % 4096 < 2 ^ 16), ← hlow]
    apply Nat.eq_of_testBit_eq
    intro j
    rw [Nat.testBit_and, Nat.testBit_and, show (4096 : Nat) = 2 ^ 12 from rfl, Nat.testBit_mod_two_pow]
    by_cases hj : j < 12
    · simp [hj]
    · have : sub.testBit j = false :=
        Nat.testBit_lt_two_pow (lt_of_lt_of_le (show sub < 2 ^ 12 from hs) (Nat.pow_le_pow_right (by omega) (by omega)))
      simp [this]
  rw [hsplit, BitVec.and_or_distrib_left, and_family_mask, hlow', hf]
  apply BitVec.eq_of_toNat_eq
  rw [BitVec.toNat_or, BitVec.toNat_ofNat, BitVec.toNat_ofNat, BitVec.toNat_ofNat,
    Nat.mod_eq_of_lt (by omega : code / 4096 * 4096 < 2 ^ 16), Nat.mod_eq_of_lt (by omega : code % 4096 < 2 ^ 16),
    Nat.mod_eq_of_lt (by omega : code < 2 ^ 16)]
  have := Nat.shiftLeft_add_eq_or_of_lt (a := code / 4096) (i := 12) (b := code % 4096) (by omega)
  rw [Nat.shiftLeft_eq] at this
  rw [show (2 : Nat) ^ 12 = 4096 from rfl] at this
  omega

end Sys2Proof
end

