-- ==== Sys2Proof/Laws/State.lean ====
section
/-! SUPPORT. One lemma per field per update of State, true by rfl, and the readers of registers, memory and keys
after each update. -/

namespace Sys2Proof.Machine

variable (s : State)

/-! ## setV -/

@[simp] theorem State.setV_v (r : Reg) (b : Byte) : (s.setV r b).v = s.v.set r.val b := rfl
@[simp] theorem State.setV_i (r : Reg) (b : Byte) : (s.setV r b).i = s.i := rfl
@[simp] theorem State.setV_pc (r : Reg) (b : Byte) : (s.setV r b).pc = s.pc := rfl
@[simp] theorem State.setV_sp (r : Reg) (b : Byte) : (s.setV r b).sp = s.sp := rfl
@[simp] theorem State.setV_stack (r : Reg) (b : Byte) : (s.setV r b).stack = s.stack := rfl
@[simp] theorem State.setV_dt (r : Reg) (b : Byte) : (s.setV r b).dt = s.dt := rfl
@[simp] theorem State.setV_st (r : Reg) (b : Byte) : (s.setV r b).st = s.st := rfl
@[simp] theorem State.setV_mem (r : Reg) (b : Byte) : (s.setV r b).mem = s.mem := rfl
@[simp] theorem State.setV_disp (r : Reg) (b : Byte) : (s.setV r b).disp = s.disp := rfl
@[simp] theorem State.setV_keys (r : Reg) (b : Byte) : (s.setV r b).keys = s.keys := rfl
@[simp] theorem State.setV_run (r : Reg) (b : Byte) : (s.setV r b).run = s.run := rfl
@[simp] theorem State.setV_elapsed (r : Reg) (b : Byte) : (s.setV r b).elapsed = s.elapsed := rfl
@[simp] theorem State.setV_cfg (r : Reg) (b : Byte) : (s.setV r b).cfg = s.cfg := rfl
@[simp] theorem State.setV_reports (r : Reg) (b : Byte) : (s.setV r b).reports = s.reports := rfl
@[simp] theorem State.setV_loadStatus (r : Reg) (b : Byte) : (s.setV r b).loadStatus = s.loadStatus := rfl
@[simp] theorem State.setV_started (r : Reg) (b : Byte) : (s.setV r b).started = s.started := rfl
@[simp] theorem State.setV_inputs (r : Reg) (b : Byte) : (s.setV r b).inputs = s.inputs := rfl
@[simp] theorem State.setV_rndIn (r : Reg) (b : Byte) : (s.setV r b).rndIn = s.rndIn := rfl
@[simp] theorem State.setV_rndCount (r : Reg) (b : Byte) : (s.setV r b).rndCount = s.rndCount := rfl
@[simp] theorem State.setV_byteAt (r : Reg) (b : Byte) (q : Nat) : (s.setV r b).byteAt q = s.byteAt q := rfl
@[simp] theorem State.setV_keyDown (r : Reg) (b : Byte) (q : Key) : (s.setV r b).keyDown q = s.keyDown q := rfl

/-! ## setFlag -/

@[simp] theorem State.setFlag_v (f : Byte) : (s.setFlag f).v = s.v.set VF.val f := rfl
@[simp] theorem State.setFlag_i (f : Byte) : (s.setFlag f).i = s.i := rfl
@[simp] theorem State.setFlag_pc (f : Byte) : (s.setFlag f).pc = s.pc := rfl
@[simp] theorem State.setFlag_sp (f : Byte) : (s.setFlag f).sp = s.sp := rfl
@[simp] theorem State.setFlag_stack (f : Byte) : (s.setFlag f).stack = s.stack := rfl
@[simp] theorem State.setFlag_dt (f : Byte) : (s.setFlag f).dt = s.dt := rfl
@[simp] theorem State.setFlag_st (f : Byte) : (s.setFlag f).st = s.st := rfl
@[simp] theorem State.setFlag_mem (f : Byte) : (s.setFlag f).mem = s.mem := rfl
@[simp] theorem State.setFlag_disp (f : Byte) : (s.setFlag f).disp = s.disp := rfl
@[simp] theorem State.setFlag_keys (f : Byte) : (s.setFlag f).keys = s.keys := rfl
@[simp] theorem State.setFlag_run (f : Byte) : (s.setFlag f).run = s.run := rfl
@[simp] theorem State.setFlag_elapsed (f : Byte) : (s.setFlag f).elapsed = s.elapsed := rfl
@[simp] theorem State.setFlag_cfg (f : Byte) : (s.setFlag f).cfg = s.cfg := rfl
@[simp] theorem State.setFlag_reports (f : Byte) : (s.setFlag f).reports = s.reports := rfl
@[simp] theorem State.setFlag_loadStatus (f : Byte) : (s.setFlag f).loadStatus = s.loadStatus := rfl
@[simp] theorem State.setFlag_started (f : Byte) : (s.setFlag f).started = s.started := rfl
@[simp] theorem State.setFlag_inputs (f : Byte) : (s.setFlag f).inputs = s.inputs := rfl
@[simp] theorem State.setFlag_rndIn (f : Byte) : (s.setFlag f).rndIn = s.rndIn := rfl
@[simp] theorem State.setFlag_rndCount (f : Byte) : (s.setFlag f).rndCount = s.rndCount := rfl
@[simp] theorem State.setFlag_byteAt (f : Byte) (q : Nat) : (s.setFlag f).byteAt q = s.byteAt q := rfl
@[simp] theorem State.setFlag_keyDown (f : Byte) (q : Key) : (s.setFlag f).keyDown q = s.keyDown q := rfl

/-! ## setKey -/

@[simp] theorem State.setKey_v (k : Key) (p : Bool) : (s.setKey k p).v = s.v := rfl
@[simp] theorem State.setKey_i (k : Key) (p : Bool) : (s.setKey k p).i = s.i := rfl
@[simp] theorem State.setKey_pc (k : Key) (p : Bool) : (s.setKey k p).pc = s.pc := rfl
@[simp] theorem State.setKey_sp (k : Key) (p : Bool) : (s.setKey k p).sp = s.sp := rfl
@[simp] theorem State.setKey_stack (k : Key) (p : Bool) : (s.setKey k p).stack = s.stack := rfl
@[simp] theorem State.setKey_dt (k : Key) (p : Bool) : (s.setKey k p).dt = s.dt := rfl
@[simp] theorem State.setKey_st (k : Key) (p : Bool) : (s.setKey k p).st = s.st := rfl
@[simp] theorem State.setKey_mem (k : Key) (p : Bool) : (s.setKey k p).mem = s.mem := rfl
@[simp] theorem State.setKey_disp (k : Key) (p : Bool) : (s.setKey k p).disp = s.disp := rfl
@[simp] theorem State.setKey_keys (k : Key) (p : Bool) : (s.setKey k p).keys = s.keys.set k.val p := rfl
@[simp] theorem State.setKey_run (k : Key) (p : Bool) : (s.setKey k p).run = s.run := rfl
@[simp] theorem State.setKey_elapsed (k : Key) (p : Bool) : (s.setKey k p).elapsed = s.elapsed := rfl
@[simp] theorem State.setKey_cfg (k : Key) (p : Bool) : (s.setKey k p).cfg = s.cfg := rfl
@[simp] theorem State.setKey_reports (k : Key) (p : Bool) : (s.setKey k p).reports = s.reports := rfl
@[simp] theorem State.setKey_loadStatus (k : Key) (p : Bool) : (s.setKey k p).loadStatus = s.loadStatus := rfl
@[simp] theorem State.setKey_started (k : Key) (p : Bool) : (s.setKey k p).started = s.started := rfl
@[simp] theorem State.setKey_inputs (k : Key) (p : Bool) : (s.setKey k p).inputs = s.inputs := rfl
@[simp] theorem State.setKey_rndIn (k : Key) (p : Bool) : (s.setKey k p).rndIn = s.rndIn := rfl
@[simp] theorem State.setKey_rndCount (k : Key) (p : Bool) : (s.setKey k p).rndCount = s.rndCount := rfl
@[simp] theorem State.setKey_getV (k : Key) (p : Bool) (q : Reg) : (s.setKey k p).getV q = s.getV q := rfl
@[simp] theorem State.setKey_byteAt (k : Key) (p : Bool) (q : Nat) : (s.setKey k p).byteAt q = s.byteAt q := rfl

/-! ## takeRnd -/

@[simp] theorem State.takeRnd_v : (s.takeRnd).v = s.v := rfl
@[simp] theorem State.takeRnd_i : (s.takeRnd).i = s.i := rfl
@[simp] theorem State.takeRnd_pc : (s.takeRnd).pc = s.pc := rfl
@[simp] theorem State.takeRnd_sp : (s.takeRnd).sp = s.sp := rfl
@[simp] theorem State.takeRnd_stack : (s.takeRnd).stack = s.stack := rfl
@[simp] theorem State.takeRnd_dt : (s.takeRnd).dt = s.dt := rfl
@[simp] theorem State.takeRnd_st : (s.takeRnd).st = s.st := rfl
@[simp] theorem State.takeRnd_mem : (s.takeRnd).mem = s.mem := rfl
@[simp] theorem State.takeRnd_disp : (s.takeRnd).disp = s.disp := rfl
@[simp] theorem State.takeRnd_keys : (s.takeRnd).keys = s.keys := rfl
@[simp] theorem State.takeRnd_run : (s.takeRnd).run = s.run := rfl
@[simp] theorem State.takeRnd_elapsed : (s.takeRnd).elapsed = s.elapsed := rfl
@[simp] theorem State.takeRnd_cfg : (s.takeRnd).cfg = s.cfg := rfl
@[simp] theorem State.takeRnd_reports : (s.takeRnd).reports = s.reports := rfl
@[simp] theorem State.takeRnd_loadStatus : (s.takeRnd).loadStatus = s.loadStatus := rfl
@[simp] theorem State.takeRnd_started : (s.takeRnd).started = s.started := rfl
@[simp] theorem State.takeRnd_inputs : (s.takeRnd).inputs = s.inputs := rfl
@[simp] theorem State.takeRnd_rndIn : (s.takeRnd).rndIn = s.rndIn.tail := rfl
@[simp] theorem State.takeRnd_rndCount : (s.takeRnd).rndCount = s.rndCount + 1 := rfl
@[simp] theorem State.takeRnd_getV (q : Reg) : (s.takeRnd).getV q = s.getV q := rfl
@[simp] theorem State.takeRnd_byteAt (q : Nat) : (s.takeRnd).byteAt q = s.byteAt q := rfl
@[simp] theorem State.takeRnd_keyDown (q : Key) : (s.takeRnd).keyDown q = s.keyDown q := rfl

/-! ## setRegBlock -/

@[simp] theorem State.setRegBlock_v (bs : List Byte) : (s.setRegBlock bs).v = Vector.ofFn fun j : Fin 16 => bs.getD j.val s.v[j.val] := rfl
@[simp] theorem State.setRegBlock_i (bs : List Byte) : (s.setRegBlock bs).i = s.i := rfl
@[simp] theorem State.setRegBlock_pc (bs : List Byte) : (s.setRegBlock bs).pc = s.pc := rfl
@[simp] theorem State.setRegBlock_sp (bs : List Byte) : (s.setRegBlock bs).sp = s.sp := rfl
@[simp] theorem State.setRegBlock_stack (bs : List Byte) : (s.setRegBlock bs).stack = s.stack := rfl
@[simp] theorem State.setRegBlock_dt (bs : List Byte) : (s.setRegBlock bs).dt = s.dt := rfl
@[simp] theorem State.setRegBlock_st (bs : List Byte) : (s.setRegBlock bs).st = s.st := rfl
@[simp] theorem State.setRegBlock_mem (bs : List Byte) : (s.setRegBlock bs).mem = s.mem := rfl
@[simp] theorem State.setRegBlock_disp (bs : List Byte) : (s.setRegBlock bs).disp = s.disp := rfl
@[simp] theorem State.setRegBlock_keys (bs : List Byte) : (s.setRegBlock bs).keys = s.keys := rfl
@[simp] theorem State.setRegBlock_run (bs : List Byte) : (s.setRegBlock bs).run = s.run := rfl
@[simp] theorem State.setRegBlock_elapsed (bs : List Byte) : (s.setRegBlock bs).elapsed = s.elapsed := rfl
@[simp] theorem State.setRegBlock_cfg (bs : List Byte) : (s.setRegBlock bs).cfg = s.cfg := rfl
@[simp] theorem State.setRegBlock_reports (bs : List Byte) : (s.setRegBlock bs).reports = s.reports := rfl
@[simp] theorem State.setRegBlock_loadStatus (bs : List Byte) : (s.setRegBlock bs).loadStatus = s.loadStatus := rfl
@[simp] theorem State.setRegBlock_started (bs : List Byte) : (s.setRegBlock bs).started = s.started := rfl
@[simp] theorem State.setRegBlock_inputs (bs : List Byte) : (s.setRegBlock bs).inputs = s.inputs := rfl
@[simp] theorem State.setRegBlock_rndIn (bs : List Byte) : (s.setRegBlock bs).rndIn = s.rndIn := rfl
@[simp] theorem State.setRegBlock_rndCount (bs : List Byte) : (s.setRegBlock bs).rndCount = s.rndCount := rfl
@[simp] theorem State.setRegBlock_byteAt (bs : List Byte) (q : Nat) : (s.setRegBlock bs).byteAt q = s.byteAt q := rfl
@[simp] theorem State.setRegBlock_keyDown (bs : List Byte) (q : Key) : (s.setRegBlock bs).keyDown q = s.keyDown q := rfl

/-! ## putBytes -/

@[simp] theorem State.putBytes_v (a : Nat) (bs : List Byte) : (s.putBytes a bs).v = s.v := rfl
@[simp] theorem State.putBytes_i (a : Nat) (bs : List Byte) : (s.putBytes a bs).i = s.i := rfl
@[simp] theorem State.putBytes_pc (a : Nat) (bs : List Byte) : (s.putBytes a bs).pc = s.pc := rfl
@[simp] theorem State.putBytes_sp (a : Nat) (bs : List Byte) : (s.putBytes a bs).sp = s.sp := rfl
@[simp] theorem State.putBytes_stack (a : Nat) (bs : List Byte) : (s.putBytes a bs).stack = s.stack := rfl
@[simp] theorem State.putBytes_dt (a : Nat) (bs : List Byte) : (s.putBytes a bs).dt = s.dt := rfl
@[simp] theorem State.putBytes_st (a : Nat) (bs : List Byte) : (s.putBytes a bs).st = s.st := rfl
@[simp] theorem State.putBytes_mem (a : Nat) (bs : List Byte) : (s.putBytes a bs).mem = s.mem.putAll s.cfg.fontTable a bs := rfl
@[simp] theorem State.putBytes_disp (a : Nat) (bs : List Byte) : (s.putBytes a bs).disp = s.disp := rfl
@[simp] theorem State.putBytes_keys (a : Nat) (bs : List Byte) : (s.putBytes a bs).keys = s.keys := rfl
@[simp] theorem State.putBytes_run (a : Nat) (bs : List Byte) : (s.putBytes a bs).run = s.run := rfl
@[simp] theorem State.putBytes_elapsed (a : Nat) (bs : List Byte) : (s.putBytes a bs).elapsed = s.elapsed := rfl
@[simp] theorem State.putBytes_cfg (a : Nat) (bs : List Byte) : (s.putBytes a bs).cfg = s.cfg := rfl
@[simp] theorem State.putBytes_reports (a : Nat) (bs : List Byte) : (s.putBytes a bs).reports = s.reports := rfl
@[simp] theorem State.putBytes_loadStatus (a : Nat) (bs : List Byte) : (s.putBytes a bs).loadStatus = s.loadStatus := rfl
@[simp] theorem State.putBytes_started (a : Nat) (bs : List Byte) : (s.putBytes a bs).started = s.started := rfl
@[simp] theorem State.putBytes_inputs (a : Nat) (bs : List Byte) : (s.putBytes a bs).inputs = s.inputs := rfl
@[simp] theorem State.putBytes_rndIn (a : Nat) (bs : List Byte) : (s.putBytes a bs).rndIn = s.rndIn := rfl
@[simp] theorem State.putBytes_rndCount (a : Nat) (bs : List Byte) : (s.putBytes a bs).rndCount = s.rndCount := rfl
@[simp] theorem State.putBytes_getV (a : Nat) (bs : List Byte) (q : Reg) : (s.putBytes a bs).getV q = s.getV q := rfl
@[simp] theorem State.putBytes_keyDown (a : Nat) (bs : List Byte) (q : Key) : (s.putBytes a bs).keyDown q = s.keyDown q := rfl

/-! ## advance -/

@[simp] theorem State.advance_v : (s.advance).v = s.v := rfl
@[simp] theorem State.advance_i : (s.advance).i = s.i := rfl
@[simp] theorem State.advance_pc : (s.advance).pc = s.pc + 2 := rfl
@[simp] theorem State.advance_sp : (s.advance).sp = s.sp := rfl
@[simp] theorem State.advance_stack : (s.advance).stack = s.stack := rfl
@[simp] theorem State.advance_dt : (s.advance).dt = s.dt := rfl
@[simp] theorem State.advance_st : (s.advance).st = s.st := rfl
@[simp] theorem State.advance_mem : (s.advance).mem = s.mem := rfl
@[simp] theorem State.advance_disp : (s.advance).disp = s.disp := rfl
@[simp] theorem State.advance_keys : (s.advance).keys = s.keys := rfl
@[simp] theorem State.advance_run : (s.advance).run = s.run := rfl
@[simp] theorem State.advance_elapsed : (s.advance).elapsed = s.elapsed := rfl
@[simp] theorem State.advance_cfg : (s.advance).cfg = s.cfg := rfl
@[simp] theorem State.advance_reports : (s.advance).reports = s.reports := rfl
@[simp] theorem State.advance_loadStatus : (s.advance).loadStatus = s.loadStatus := rfl
@[simp] theorem State.advance_started : (s.advance).started = s.started := rfl
@[simp] theorem State.advance_inputs : (s.advance).inputs = s.inputs := rfl
@[simp] theorem State.advance_rndIn : (s.advance).rndIn = s.rndIn := rfl
@[simp] theorem State.advance_rndCount : (s.advance).rndCount = s.rndCount := rfl
@[simp] theorem State.advance_getV (q : Reg) : (s.advance).getV q = s.getV q := rfl
@[simp] theorem State.advance_byteAt (q : Nat) : (s.advance).byteAt q = s.byteAt q := rfl
@[simp] theorem State.advance_keyDown (q : Key) : (s.advance).keyDown q = s.keyDown q := rfl

/-! ## skipIf -/

@[simp] theorem State.skipIf_v (c : Bool) : (s.skipIf c).v = s.v := rfl
@[simp] theorem State.skipIf_i (c : Bool) : (s.skipIf c).i = s.i := rfl
@[simp] theorem State.skipIf_pc (c : Bool) : (s.skipIf c).pc = if c then s.pc + 4 else s.pc + 2 := rfl
@[simp] theorem State.skipIf_sp (c : Bool) : (s.skipIf c).sp = s.sp := rfl
@[simp] theorem State.skipIf_stack (c : Bool) : (s.skipIf c).stack = s.stack := rfl
@[simp] theorem State.skipIf_dt (c : Bool) : (s.skipIf c).dt = s.dt := rfl
@[simp] theorem State.skipIf_st (c : Bool) : (s.skipIf c).st = s.st := rfl
@[simp] theorem State.skipIf_mem (c : Bool) : (s.skipIf c).mem = s.mem := rfl
@[simp] theorem State.skipIf_disp (c : Bool) : (s.skipIf c).disp = s.disp := rfl
@[simp] theorem State.skipIf_keys (c : Bool) : (s.skipIf c).keys = s.keys := rfl
@[simp] theorem State.skipIf_run (c : Bool) : (s.skipIf c).run = s.run := rfl
@[simp] theorem State.skipIf_elapsed (c : Bool) : (s.skipIf c).elapsed = s.elapsed := rfl
@[simp] theorem State.skipIf_cfg (c : Bool) : (s.skipIf c).cfg = s.cfg := rfl
@[simp] theorem State.skipIf_reports (c : Bool) : (s.skipIf c).reports = s.reports := rfl
@[simp] theorem State.skipIf_loadStatus (c : Bool) : (s.skipIf c).loadStatus = s.loadStatus := rfl
@[simp] theorem State.skipIf_started (c : Bool) : (s.skipIf c).started = s.started := rfl
@[simp] theorem State.skipIf_inputs (c : Bool) : (s.skipIf c).inputs = s.inputs := rfl
@[simp] theorem State.skipIf_rndIn (c : Bool) : (s.skipIf c).rndIn = s.rndIn := rfl
@[simp] theorem State.skipIf_rndCount (c : Bool) : (s.skipIf c).rndCount = s.rndCount := rfl
@[simp] theorem State.skipIf_getV (c : Bool) (q : Reg) : (s.skipIf c).getV q = s.getV q := rfl
@[simp] theorem State.skipIf_byteAt (c : Bool) (q : Nat) : (s.skipIf c).byteAt q = s.byteAt q := rfl
@[simp] theorem State.skipIf_keyDown (c : Bool) (q : Key) : (s.skipIf c).keyDown q = s.keyDown q := rfl

/-! ## takeFault -/

@[simp] theorem State.takeFault_v (e : FatalFault) (w : Option Word) (a : Option Nat) : (s.takeFault e w a).v = s.v := rfl
@[simp] theorem State.takeFault_i (e : FatalFault) (w : Option Word) (a : Option Nat) : (s.takeFault e w a).i = s.i := rfl
@[simp] theorem State.takeFault_pc (e : FatalFault) (w : Option Word) (a : Option Nat) : (s.takeFault e w a).pc = s.pc := rfl
@[simp] theorem State.takeFault_sp (e : FatalFault) (w : Option Word) (a : Option Nat) : (s.takeFault e w a).sp = s.sp := rfl
@[simp] theorem State.takeFault_stack (e : FatalFault) (w : Option Word) (a : Option Nat) : (s.takeFault e w a).stack = s.stack := rfl
@[simp] theorem State.takeFault_dt (e : FatalFault) (w : Option Word) (a : Option Nat) : (s.takeFault e w a).dt = s.dt := rfl
@[simp] theorem State.takeFault_st (e : FatalFault) (w : Option Word) (a : Option Nat) : (s.takeFault e w a).st = s.st := rfl
@[simp] theorem State.takeFault_mem (e : FatalFault) (w : Option Word) (a : Option Nat) : (s.takeFault e w a).mem = s.mem := rfl
@[simp] theorem State.takeFault_disp (e : FatalFault) (w : Option Word) (a : Option Nat) : (s.takeFault e w a).disp = s.disp := rfl
@[simp] theorem State.takeFault_keys (e : FatalFault) (w : Option Word) (a : Option Nat) : (s.takeFault e w a).keys = s.keys := rfl
@[simp] theorem State.takeFault_run (e : FatalFault) (w : Option Word) (a : Option Nat) : (s.takeFault e w a).run = .halted e s.pc w := rfl
@[simp] theorem State.takeFault_elapsed (e : FatalFault) (w : Option Word) (a : Option Nat) : (s.takeFault e w a).elapsed = s.elapsed := rfl
@[simp] theorem State.takeFault_cfg (e : FatalFault) (w : Option Word) (a : Option Nat) : (s.takeFault e w a).cfg = s.cfg := rfl
@[simp] theorem State.takeFault_reports (e : FatalFault) (w : Option Word) (a : Option Nat) : (s.takeFault e w a).reports = s.reports ++ [⟨.fatal e, s.pc, w, a⟩] := rfl
@[simp] theorem State.takeFault_loadStatus (e : FatalFault) (w : Option Word) (a : Option Nat) : (s.takeFault e w a).loadStatus = s.loadStatus := rfl
@[simp] theorem State.takeFault_started (e : FatalFault) (w : Option Word) (a : Option Nat) : (s.takeFault e w a).started = s.started := rfl
@[simp] theorem State.takeFault_inputs (e : FatalFault) (w : Option Word) (a : Option Nat) : (s.takeFault e w a).inputs = s.inputs := rfl
@[simp] theorem State.takeFault_rndIn (e : FatalFault) (w : Option Word) (a : Option Nat) : (s.takeFault e w a).rndIn = s.rndIn := rfl
@[simp] theorem State.takeFault_rndCount (e : FatalFault) (w : Option Word) (a : Option Nat) : (s.takeFault e w a).rndCount = s.rndCount := rfl
@[simp] theorem State.takeFault_getV (e : FatalFault) (w : Option Word) (a : Option Nat) (q : Reg) : (s.takeFault e w a).getV q = s.getV q := rfl
@[simp] theorem State.takeFault_byteAt (e : FatalFault) (w : Option Word) (a : Option Nat) (q : Nat) : (s.takeFault e w a).byteAt q = s.byteAt q := rfl
@[simp] theorem State.takeFault_keyDown (e : FatalFault) (w : Option Word) (a : Option Nat) (q : Key) : (s.takeFault e w a).keyDown q = s.keyDown q := rfl

/-! ## push -/

@[simp] theorem State.push_v (w : Word) : (s.push w).v = s.v := rfl
@[simp] theorem State.push_i (w : Word) : (s.push w).i = s.i := rfl
@[simp] theorem State.push_pc (w : Word) : (s.push w).pc = s.pc := rfl
@[simp] theorem State.push_sp (w : Word) : (s.push w).sp = s.sp + 1 := rfl
@[simp] theorem State.push_stack (w : Word) : (s.push w).stack = s.stack.set (s.sp + 1).val w := rfl
@[simp] theorem State.push_dt (w : Word) : (s.push w).dt = s.dt := rfl
@[simp] theorem State.push_st (w : Word) : (s.push w).st = s.st := rfl
@[simp] theorem State.push_mem (w : Word) : (s.push w).mem = s.mem := rfl
@[simp] theorem State.push_disp (w : Word) : (s.push w).disp = s.disp := rfl
@[simp] theorem State.push_keys (w : Word) : (s.push w).keys = s.keys := rfl
@[simp] theorem State.push_run (w : Word) : (s.push w).run = s.run := rfl
@[simp] theorem State.push_elapsed (w : Word) : (s.push w).elapsed = s.elapsed := rfl
@[simp] theorem State.push_cfg (w : Word) : (s.push w).cfg = s.cfg := rfl
@[simp] theorem State.push_reports (w : Word) : (s.push w).reports = s.reports := rfl
@[simp] theorem State.push_loadStatus (w : Word) : (s.push w).loadStatus = s.loadStatus := rfl
@[simp] theorem State.push_started (w : Word) : (s.push w).started = s.started := rfl
@[simp] theorem State.push_inputs (w : Word) : (s.push w).inputs = s.inputs := rfl
@[simp] theorem State.push_rndIn (w : Word) : (s.push w).rndIn = s.rndIn := rfl
@[simp] theorem State.push_rndCount (w : Word) : (s.push w).rndCount = s.rndCount := rfl
@[simp] theorem State.push_getV (w : Word) (q : Reg) : (s.push w).getV q = s.getV q := rfl
@[simp] theorem State.push_byteAt (w : Word) (q : Nat) : (s.push w).byteAt q = s.byteAt q := rfl
@[simp] theorem State.push_keyDown (w : Word) (q : Key) : (s.push w).keyDown q = s.keyDown q := rfl

/-! ## pop -/

@[simp] theorem State.pop_v : (s.pop).v = s.v := rfl
@[simp] theorem State.pop_i : (s.pop).i = s.i := rfl
@[simp] theorem State.pop_pc : (s.pop).pc = s.pc := rfl
@[simp] theorem State.pop_sp : (s.pop).sp = s.sp - 1 := rfl
@[simp] theorem State.pop_stack : (s.pop).stack = s.stack := rfl
@[simp] theorem State.pop_dt : (s.pop).dt = s.dt := rfl
@[simp] theorem State.pop_st : (s.pop).st = s.st := rfl
@[simp] theorem State.pop_mem : (s.pop).mem = s.mem := rfl
@[simp] theorem State.pop_disp : (s.pop).disp = s.disp := rfl
@[simp] theorem State.pop_keys : (s.pop).keys = s.keys := rfl
@[simp] theorem State.pop_run : (s.pop).run = s.run := rfl
@[simp] theorem State.pop_elapsed : (s.pop).elapsed = s.elapsed := rfl
@[simp] theorem State.pop_cfg : (s.pop).cfg = s.cfg := rfl
@[simp] theorem State.pop_reports : (s.pop).reports = s.reports := rfl
@[simp] theorem State.pop_loadStatus : (s.pop).loadStatus = s.loadStatus := rfl
@[simp] theorem State.pop_started : (s.pop).started = s.started := rfl
@[simp] theorem State.pop_inputs : (s.pop).inputs = s.inputs := rfl
@[simp] theorem State.pop_rndIn : (s.pop).rndIn = s.rndIn := rfl
@[simp] theorem State.pop_rndCount : (s.pop).rndCount = s.rndCount := rfl
@[simp] theorem State.pop_getV (q : Reg) : (s.pop).getV q = s.getV q := rfl
@[simp] theorem State.pop_byteAt (q : Nat) : (s.pop).byteAt q = s.byteAt q := rfl
@[simp] theorem State.pop_keyDown (q : Key) : (s.pop).keyDown q = s.keyDown q := rfl

/-! ## beginCycle -/

@[simp] theorem State.beginCycle_v : (s.beginCycle).v = s.v := rfl
@[simp] theorem State.beginCycle_i : (s.beginCycle).i = s.i := rfl
@[simp] theorem State.beginCycle_pc : (s.beginCycle).pc = s.pc := rfl
@[simp] theorem State.beginCycle_sp : (s.beginCycle).sp = s.sp := rfl
@[simp] theorem State.beginCycle_stack : (s.beginCycle).stack = s.stack := rfl
@[simp] theorem State.beginCycle_dt : (s.beginCycle).dt = s.dt := rfl
@[simp] theorem State.beginCycle_st : (s.beginCycle).st = s.st := rfl
@[simp] theorem State.beginCycle_mem : (s.beginCycle).mem = s.mem := rfl
@[simp] theorem State.beginCycle_disp : (s.beginCycle).disp = s.disp := rfl
@[simp] theorem State.beginCycle_keys : (s.beginCycle).keys = s.keys := rfl
@[simp] theorem State.beginCycle_run : (s.beginCycle).run = s.run := rfl
@[simp] theorem State.beginCycle_elapsed : (s.beginCycle).elapsed = s.elapsed := rfl
@[simp] theorem State.beginCycle_cfg : (s.beginCycle).cfg = s.cfg := rfl
@[simp] theorem State.beginCycle_reports : (s.beginCycle).reports = s.reports := rfl
@[simp] theorem State.beginCycle_loadStatus : (s.beginCycle).loadStatus = s.loadStatus := rfl
@[simp] theorem State.beginCycle_started : (s.beginCycle).started = true := rfl
@[simp] theorem State.beginCycle_inputs : (s.beginCycle).inputs = s.inputs := rfl
@[simp] theorem State.beginCycle_rndIn : (s.beginCycle).rndIn = s.rndIn := rfl
@[simp] theorem State.beginCycle_rndCount : (s.beginCycle).rndCount = s.rndCount := rfl
@[simp] theorem State.beginCycle_getV (q : Reg) : (s.beginCycle).getV q = s.getV q := rfl
@[simp] theorem State.beginCycle_byteAt (q : Nat) : (s.beginCycle).byteAt q = s.byteAt q := rfl
@[simp] theorem State.beginCycle_keyDown (q : Key) : (s.beginCycle).keyDown q = s.keyDown q := rfl

/-! ## Readers of what an update wrote -/

/-- A register read after a register write. -/
@[simp] theorem State.getV_setV (r q : Reg) (b : Byte) : (s.setV r b).getV q = if q = r then b else s.getV q := by
  simp only [State.getV, State.setV, Vector.getElem_set, Fin.ext_iff, eq_comm]

/-- A register read after the flag write. -/
@[simp] theorem State.getV_setFlag (q : Reg) (f : Byte) : (s.setFlag f).getV q = if q = VF then f else s.getV q :=
  State.getV_setV s VF q f

/-- A key read after a key write. -/
@[simp] theorem State.keyDown_setKey (k q : Key) (p : Bool) :
    (s.setKey k p).keyDown q = if q = k then p else s.keyDown q := by
  simp only [State.keyDown, State.setKey, Vector.getElem_set, Fin.ext_iff, eq_comm]

/-- A register read after a block of registers is written. -/
@[simp] theorem State.getV_setRegBlock (bs : List Byte) (q : Reg) :
    (s.setRegBlock bs).getV q = bs.getD q.val (s.getV q) := by
  simp [State.getV, State.setRegBlock]

/-- The block V[0] to V[x] has x + 1 bytes. -/
@[simp] theorem State.regBlock_length (x : Reg) : (s.regBlock x).length = x.val + 1 := by
  simp [State.regBlock]

/-- Byte j of the block is V[j]. -/
theorem State.regBlock_getElem (x : Reg) (j : Nat) (h : j < (s.regBlock x).length) (hj : j < 16) :
    (s.regBlock x)[j] = s.getV ⟨j, hj⟩ := by
  simp [State.regBlock, State.getV]

end Sys2Proof.Machine
end

