-- ==== Sys2Proof/Laws/Display.lean ====
section
/-! SUPPORT. What the sprite engine does, pixel by pixel (44_display.md R162 to R165): each drawing function flips
exactly the pixels its set bits land on, and its collision flag says whether one of them was set. -/

namespace Sys2Proof.Machine

/-- A pixel read after a pixel is flipped. -/
theorem Display.pixel_flip (d : Display) (py qy : Fin 32) (px qx : Fin 64) :
    (d.flip py px).pixel qy qx = (d.pixel qy qx ^^ (decide (qy = py) && decide (qx = px))) := by
  by_cases hy : py.val = qy.val
  · have hy' : qy = py := Fin.ext hy.symm
    subst hy'
    by_cases hx : qx = px
    · subst hx; simp [Display.flip, Display.pixel]
    · have : ¬ qx.val = px.val := fun h => hx (Fin.ext h)
      simp [Display.flip, Display.pixel, hx, this]
  · have hy' : ¬ qy = py := fun h => hy (congrArg Fin.val h.symm)
    simp [Display.flip, Display.pixel, hy, hy']

/-- A cleared display has no pixel set (R161). -/
@[simp] theorem Display.pixel_clear (py : Fin 32) (px : Fin 64) : Display.clear.pixel py px = false := by
  simp [Display.clear, Display.pixel]

/-- What drawing did: exactly the covered pixels are flipped, and the collision flag rises exactly when a covered
pixel was set. -/
structure Drew (covered : Fin 32 → Fin 64 → Prop) (before after : Display × Bool) : Prop where
  pixels : ∀ py px, after.1.pixel py px = true ↔ ¬(before.1.pixel py px = true ↔ covered py px)
  collision : after.2 = true ↔ before.2 = true ∨ ∃ py px, covered py px ∧ before.1.pixel py px = true

/-- Drawing nothing. -/
theorem Drew.refl (acc : Display × Bool) : Drew (fun _ _ => False) acc acc where
  pixels py px := by simp
  collision := by simp

/-- The same drawing under an equal description of the pixels. -/
theorem Drew.congr {c c' : Fin 32 → Fin 64 → Prop} {before after : Display × Bool} (h : Drew c before after)
    (hc : ∀ py px, c py px ↔ c' py px) : Drew c' before after := by
  have : c = c' := funext fun py => funext fun px => propext (hc py px)
  exact this ▸ h

/-- Two drawings on different pixels, one after the other. -/
theorem Drew.trans {c d : Fin 32 → Fin 64 → Prop} {a b e : Display × Bool} (h : Drew c a b) (k : Drew d b e)
    (disjoint : ∀ py px, c py px → ¬ d py px) : Drew (fun py px => c py px ∨ d py px) a e where
  pixels py px := by
    have h1 := h.pixels py px
    have h2 := k.pixels py px
    have h3 := disjoint py px
    tauto
  collision := by
    rw [k.collision, h.collision]
    constructor
    · rintro ((h | ⟨py, px, hc, hp⟩) | ⟨py, px, hd, hp⟩)
      · exact .inl h
      · exact .inr ⟨py, px, .inl hc, hp⟩
      · have h1 := h.pixels py px
        have h3 := disjoint py px
        exact .inr ⟨py, px, .inr hd, by tauto⟩
    · rintro (h | ⟨py, px, hc | hd, hp⟩)
      · exact .inl (.inl h)
      · exact .inl (.inr ⟨py, px, hc, hp⟩)
      · have h1 := h.pixels py px
        have h3 := disjoint py px
        exact .inr ⟨py, px, hd, by tauto⟩

/-- One sprite bit covers its own wrapped pixel when it is set (R164). -/
theorem drawPixel_drew (bit : Bool) (col row : Nat) (acc : Display × Bool) :
    Drew (fun py px => bit = true ∧ px.val = col % 64 ∧ py.val = row % 32) acc (drawPixel bit col row acc) := by
  cases bit with
  | false => exact (Drew.refl acc).congr fun py px => by simp
  | true =>
    have hx : ∀ px : Fin 64, px = Fin.ofNat 64 col ↔ px.val = col % 64 := fun px => Fin.ext_iff
    have hy : ∀ py : Fin 32, py = Fin.ofNat 32 row ↔ py.val = row % 32 := fun py => Fin.ext_iff
    constructor
    · intro py px
      simp only [drawPixel, if_true, Display.pixel_flip, true_and, ← hx, ← hy]
      generalize Fin.ofNat 32 row = r, Fin.ofNat 64 col = c
      by_cases h1 : py = r <;> by_cases h2 : px = c <;> simp [h1, h2]
    · simp only [drawPixel, if_true, Bool.or_eq_true, true_and, ← hx, ← hy]
      constructor
      · rintro (h | h)
        · exact .inl h
        · exact .inr ⟨_, _, ⟨rfl, rfl⟩, h⟩
      · rintro (h | ⟨py, px, ⟨rfl, rfl⟩, h⟩)
        · exact .inl h
        · exact .inr h

/-- The first `n` bits of a sprite row, drawn from the left. -/
theorem drawRow_prefix_drew (byte : Byte) (cx row : Nat) (acc : Display × Bool) (n : Nat) (hn : n ≤ 8) :
    Drew (fun py px => ∃ k < n, byte.getLsbD (7 - k) = true ∧ px.val = (cx + k) % 64 ∧ py.val = row % 32) acc
      ((List.range n).foldl (fun acc k => drawPixel (byte.getLsbD (7 - k)) (cx + k) row acc) acc) := by
  induction n with
  | zero => exact (Drew.refl acc).congr fun py px => by simp
  | succ n ih =>
    rw [List.range_succ, List.foldl_append]
    refine ((ih (by omega)).trans (drawPixel_drew (byte.getLsbD (7 - n)) (cx + n) row _) ?_).congr ?_
    · rintro py px ⟨k, hk, -, hx, -⟩ ⟨-, hx', -⟩
      omega
    · intro py px
      constructor
      · rintro (⟨k, hk, h⟩ | h)
        · exact ⟨k, by omega, h⟩
        · exact ⟨n, by omega, h⟩
      · rintro ⟨k, hk, h⟩
        rcases Nat.lt_succ_iff_lt_or_eq.mp hk with hk | rfl
        · exact .inl ⟨k, hk, h⟩
        · exact .inr h

/-- One sprite row covers the pixels of its set bits (R163). -/
theorem drawRow_drew (byte : Byte) (cx row : Nat) (acc : Display × Bool) :
    Drew (fun py px => ∃ k < 8, byte.getLsbD (7 - k) = true ∧ px.val = (cx + k) % 64 ∧ py.val = row % 32) acc
      (drawRow byte cx row acc) :=
  drawRow_prefix_drew byte cx row acc 8 le_rfl

/-- The rows of a sprite of at most 32 bytes cover the pixels of their set bits. -/
theorem drawRows_drew (cx row : Nat) (sprite : List Byte) (acc : Display × Bool) (hlen : sprite.length ≤ 32) :
    Drew (fun py px => ∃ j < sprite.length, ∃ k < 8, (sprite.getD j 0).getLsbD (7 - k) = true ∧
      px.val = (cx + k) % 64 ∧ py.val = (row + j) % 32) acc (drawRows cx row sprite acc) := by
  induction sprite generalizing row acc with
  | nil => exact (Drew.refl acc).congr fun py px => by simp
  | cons byte rest ih =>
    simp only [List.length_cons] at hlen
    refine ((drawRow_drew byte cx row acc).trans (ih (row + 1) _ (by omega)) ?_).congr ?_
    · rintro py px ⟨k, hk, -, -, hy⟩ ⟨j, hj, k', hk', -, -, hy'⟩
      omega
    · intro py px
      constructor
      · rintro (⟨k, hk, hb, hx, hy⟩ | ⟨j, hj, k, hk, hb, hx, hy⟩)
        · exact ⟨0, by simp, k, hk, by simpa using hb, hx, by simpa using hy⟩
        · exact ⟨j + 1, by simpa using hj, k, hk, by simpa using hb, hx, by rw [hy]; congr 1; omega⟩
      · rintro ⟨j, hj, k, hk, hb, hx, hy⟩
        cases j with
        | zero => exact .inl ⟨k, hk, by simpa using hb, hx, by simpa using hy⟩
        | succ j =>
          exact .inr ⟨j, by simpa using hj, k, hk, by simpa using hb, hx, by rw [hy]; congr 1; omega⟩

/-- Everything draw-sprite does (R162): the pixels it flips, and the collision it answers. -/
theorem drawSprite_drew (cx cy : Nat) (sprite : List Byte) (d : Display) (hlen : sprite.length ≤ 32) :
    Drew (fun py px => ∃ j < sprite.length, ∃ k < 8, (sprite.getD j 0).getLsbD (7 - k) = true ∧
      px.val = (cx + k) % 64 ∧ py.val = (cy + j) % 32) (d, false) (drawSprite cx cy sprite d) :=
  drawRows_drew cx cy sprite (d, false) hlen

/-- The pixels a sprite read from I covers are those of `SpriteCovers`. -/
theorem drawSprite_bytesAt_drew (s : State) (cx cy n : Nat) (hn : n ≤ 32) :
    Drew (SpriteCovers s cx cy n) (s.disp, false) (drawSprite cx cy (s.bytesAt s.i.toNat n) s.disp) := by
  refine (drawSprite_drew cx cy _ s.disp (by simpa [State.bytesAt] using hn)).congr fun py px => ?_
  have hl : (s.bytesAt s.i.toNat n).length = n := by simp [State.bytesAt]
  have hb : ∀ j < n, (s.bytesAt s.i.toNat n).getD j 0 = s.byteAt (s.i.toNat + j) := by
    intro j hj
    simp [State.bytesAt, hj]
  rw [hl]
  unfold SpriteCovers
  constructor
  · rintro ⟨j, hj, k, hk, h, r⟩
    exact ⟨j, hj, k, hk, by rw [← hb j hj]; exact h, r⟩
  · rintro ⟨j, hj, k, hk, h, r⟩
    exact ⟨j, hj, k, hk, by rw [hb j hj]; exact h, r⟩

end Sys2Proof.Machine
end

