-- ==== Sys2Proof/Laws/Memory.lean ====
section
/-! SUPPORT. What the memory operations do: reads after writes, the canonical form kept, and everything MemRead and
MemWrite can answer (20_memory.md R55 to R57). -/

namespace Sys2Proof.Machine

variable {font : FontTable}

/-- The reset content of a font byte, glyph by glyph. -/
theorem resetByte_glyph (font : FontTable) (d : Fin 16) (b : Fin 5) :
    resetByte font (5 * d.val + b.val) = (font[d.val])[b.val] := by
  have h : 5 * d.val + b.val < 80 := by omega
  have hd : (5 * d.val + b.val) / 5 = d.val := by omega
  have hb : (5 * d.val + b.val) % 5 = b.val := by omega
  simp only [resetByte, h, dif_pos, hd, hb]

/-- Outside the font table the reset content is 0. -/
theorem resetByte_of_ge {a : Nat} (h : 0x050 ≤ a) : resetByte font a = 0 := by
  simp [resetByte, Nat.not_lt.mpr h]

/-! ## One byte -/

theorem Memory.get_entry_append (a c : Nat) (b : Byte) (m : Memory) :
    (Memory.entry font a b ++ m).get font c =
      if b = resetByte font a then m.get font c else if a = c then b else m.get font c := by
  unfold Memory.entry
  split <;> rfl

/-- An address below every listed one reads as its reset content. -/
theorem Memory.get_of_below {m : Memory} {a : Nat} (h : ∀ c ∈ m, a < c.1) : m.get font a = resetByte font a := by
  induction m with
  | nil => rfl
  | cons c rest ih =>
    have hc := h c (by simp)
    have hne : ¬ c.1 = a := by omega
    simp only [Memory.get, hne, if_false]
    exact ih fun d hd => h d (by simp [hd])

/-- A byte read after a byte write, in a memory whose addresses rise. -/
theorem Memory.get_put {m : Memory} (hm : m.Pairwise fun c d => c.1 < d.1) (a c : Nat) (b : Byte) :
    (Memory.put font a b m).get font c = if c = a then b else m.get font c := by
  induction m with
  | nil =>
    by_cases hb : b = resetByte font a <;> by_cases hc : c = a <;>
      simp [Memory.put, Memory.entry, Memory.get, hb, hc, eq_comm]
    intro h; exact absurd h.symm hc
  | cons e rest ih =>
    obtain ⟨hlt, hrest⟩ := List.pairwise_cons.mp hm
    have below : ∀ x, x ≤ e.1 → Memory.get font rest x = resetByte font x := fun x hx =>
      Memory.get_of_below fun d hd => lt_of_le_of_lt hx (hlt d hd)
    rcases Nat.lt_trichotomy a e.1 with h1 | h1 | h1
    · simp only [Memory.put, h1, if_true, Memory.get_entry_append]
      by_cases hc : c = a
      · subst hc
        by_cases hb : b = resetByte font c <;> simp [hb, Memory.get, h1.ne', below c h1.le]
      · simp [hc, Ne.symm hc]
    · subst h1
      simp only [Memory.put, lt_irrefl, if_true, if_false, Memory.get_entry_append]
      by_cases hc : c = e.1
      · subst hc
        by_cases hb : b = resetByte font e.1 <;> simp [hb, below e.1 le_rfl]
      · simp [hc, Ne.symm hc, Memory.get]
    · simp only [Memory.put, h1.not_gt, h1.ne', if_false, Memory.get]
      by_cases hc : e.1 = c
      · subst hc; simp [h1.ne]
      · simp [hc, ih hrest]

/-- What a write lists: the written address, or an address listed before. -/
theorem Memory.mem_put {m : Memory} {a : Nat} {b : Byte} {c : Host.Cell} (h : c ∈ Memory.put font a b m) :
    (c = (a, b) ∧ b ≠ resetByte font a) ∨ c ∈ m := by
  have entry : ∀ {c : Host.Cell}, c ∈ Memory.entry font a b → c = (a, b) ∧ b ≠ resetByte font a := by
    intro c hc
    unfold Memory.entry at hc
    split_ifs at hc with hb
    · simp at hc
    · exact ⟨by simpa using hc, hb⟩
  induction m with
  | nil => exact .inl (entry h)
  | cons e rest ih =>
    unfold Memory.put at h
    split_ifs at h with h1 h2
    · rcases List.mem_append.mp h with h | h
      · exact .inl (entry h)
      · exact .inr h
    · rcases List.mem_append.mp h with h | h
      · exact .inl (entry h)
      · exact .inr (by simp [h])
    · rcases List.mem_cons.mp h with h | h
      · exact .inr (by simp [h])
      · exact (ih h).imp_right fun h => by simp [h]

/-- A write in the address space keeps the canonical form. -/
theorem Memory.put_wf {m : Memory} (hm : m.wf font) {a : Nat} (ha : a < 4096) (b : Byte) :
    (Memory.put font a b m).wf font := by
  refine ⟨?_, fun c hc => ?_⟩
  · obtain ⟨hp, -⟩ := hm
    have entry : (Memory.entry font a b).Pairwise fun c d => c.1 < d.1 := by
      unfold Memory.entry; split_ifs <;> simp
    have entry_eq : ∀ c ∈ Memory.entry font a b, c.1 = a := by
      intro c hc
      unfold Memory.entry at hc
      split_ifs at hc <;> simp_all
    induction m with
    | nil => exact entry
    | cons e rest ih =>
      obtain ⟨hlt, hrest⟩ := List.pairwise_cons.mp hp
      unfold Memory.put
      split_ifs with h1 h2
      · refine List.pairwise_append.mpr ⟨entry, hp, fun c hc d hd => ?_⟩
        rw [entry_eq c hc]
        rcases List.mem_cons.mp hd with hd | hd
        · simpa [hd] using h1
        · exact h1.trans (hlt d hd)
      · refine List.pairwise_append.mpr ⟨entry, hrest, fun c hc d hd => ?_⟩
        rw [entry_eq c hc, h2]
        exact hlt d hd
      · refine List.pairwise_cons.mpr ⟨fun d hd => ?_, ih hrest⟩
        rcases Memory.mem_put hd with ⟨hd, -⟩ | hd
        · simp only [hd]; omega
        · exact hlt d hd
  · rcases Memory.mem_put hc with ⟨h, hb⟩ | h
    · simp [h, ha, hb]
    · exact hm.2 c h

/-! ## Several bytes -/

/-- A write of several bytes keeps the canonical form. -/
theorem Memory.putAll_wf {bs : List Byte} {a : Nat} {m : Memory} (hm : m.wf font) (ha : a + bs.length ≤ 4096) :
    (Memory.putAll font a bs m).wf font := by
  induction bs generalizing a m with
  | nil => exact hm
  | cons b rest ih =>
    simp only [List.length_cons] at ha
    exact ih (Memory.put_wf hm (by omega) b) (by omega)

/-- A byte read after several bytes are written. -/
theorem Memory.get_putAll {bs : List Byte} {a : Nat} {m : Memory} (hm : m.wf font) (ha : a + bs.length ≤ 4096)
    (c : Nat) :
    (Memory.putAll font a bs m).get font c =
      if a ≤ c then bs.getD (c - a) (m.get font c) else m.get font c := by
  induction bs generalizing a m with
  | nil => simp [Memory.putAll]
  | cons b rest ih =>
    simp only [List.length_cons] at ha
    have hput := Memory.get_put (font := font) hm.1 a c b
    simp only [Memory.putAll]
    rw [ih (Memory.put_wf hm (by omega) b) (by omega), hput]
    rcases Nat.lt_trichotomy c a with h | h | h
    · simp [Nat.not_le.mpr h, show ¬ a + 1 ≤ c by omega, show ¬ c = a by omega]
    · subst h
      simp
    · obtain ⟨k, hk⟩ : ∃ k, c - a = k + 1 := ⟨c - a - 1, by omega⟩
      simp [h.le, show a + 1 ≤ c by omega, show ¬ c = a by omega, hk, show c - (a + 1) = k by omega]

/-! ## The memory of a state -/

/-- Byte j of the bytes read is the byte at address a + j. -/
@[simp] theorem State.bytesAt_length (s : State) (a n : Nat) : (s.bytesAt a n).length = n := by
  simp [State.bytesAt]

@[simp] theorem State.bytesAt_getElem (s : State) (a n j : Nat) (h : j < (s.bytesAt a n).length) :
    (s.bytesAt a n)[j] = s.byteAt (a + j) := by
  simp [State.bytesAt]

/-- A byte read after the memory of a state is written. -/
theorem State.byteAt_putBytes {s : State} (hm : MemoryCanonical s) {a : Nat} {bs : List Byte}
    (ha : a + bs.length ≤ 4096) (c : Nat) :
    (s.putBytes a bs).byteAt c = if a ≤ c then bs.getD (c - a) (s.byteAt c) else s.byteAt c :=
  Memory.get_putAll hm ha c

/-- Everything MemRead can answer (R55). -/
theorem State.memRead_cases (s : State) (a n : Nat) :
    ((n = 0 ∨ a + n ≤ 0x1000) ∧ s.memRead a n = .ok (s.bytesAt a n)) ∨
    (n ≥ 1 ∧ 0x1000 < a + n ∧ s.memRead a n = .error (a + n - 1)) := by
  unfold State.memRead
  split_ifs with h
  · exact .inr ⟨h.1, by omega, rfl⟩
  · exact .inl ⟨by omega, rfl⟩

/-- Everything MemWrite can answer (R56, R57). -/
theorem State.memWrite_cases (s : State) (a : Nat) (bs : List Byte) (hbs : bs ≠ []) :
    (StoreAllowed s a bs.length ∧ s.memWrite a bs = .ok (s.putBytes a bs)) ∨
    (0x1000 < a + bs.length ∧ s.memWrite a bs = .error (a + bs.length - 1)) ∨
    (a + bs.length ≤ 0x1000 ∧ s.cfg.fontWrite = .fault ∧ a ≤ 0x04F ∧ s.memWrite a bs = .error a) := by
  have hl : 1 ≤ bs.length := List.length_pos_iff.mpr hbs
  unfold State.memWrite StoreAllowed
  split_ifs with h1 h2
  · exact .inr (.inl ⟨by omega, rfl⟩)
  · exact .inr (.inr ⟨by omega, h2.1, h2.2, rfl⟩)
  · refine .inl ⟨⟨by omega, fun hf => ?_⟩, rfl⟩
    by_contra hlt
    exact h2 ⟨hf, by omega⟩

/-- MemWrite lands where it is allowed to. -/
theorem State.memWrite_ok {s : State} {a : Nat} {bs : List Byte} (h : StoreAllowed s a bs.length) (hbs : bs ≠ []) :
    s.memWrite a bs = .ok (s.putBytes a bs) := by
  obtain ⟨hr, hf⟩ := h
  rcases s.memWrite_cases a bs hbs with h | ⟨h, -⟩ | ⟨-, hfault, ha, -⟩
  · exact h.2
  · omega
  · have := hf hfault
    omega

/-- A store that lands leaves the memory canonical. -/
theorem State.putBytes_canonical {s : State} (hm : MemoryCanonical s) {a : Nat} {bs : List Byte}
    (ha : a + bs.length ≤ 4096) : MemoryCanonical (s.putBytes a bs) := Memory.putAll_wf hm ha

end Sys2Proof.Machine
end

