-- ==== Sys2Proof/Laws/Step.lean ====
section
/-! SUPPORT. Everything a step, a cycle, an input and an instruction that can fault can do, said once. -/

namespace Sys2Proof.Machine

/-! ## Instructions that can fault (60_exceptions.md R200) -/

/-- RET pops, or underflows at SP = 0 (R120). -/
theorem execRet_cases (s : State) :
    (s.sp ≠ 0 ∧ execRet s = .next { s.pop with pc := s.stackTop }) ∨
    (s.sp = 0 ∧ execRet s = s.raise .stackUnderflow .ret none) := by
  unfold execRet
  split_ifs with h
  · exact .inr ⟨h, rfl⟩
  · exact .inl ⟨h, rfl⟩

/-- CALL pushes, or overflows at SP = 15 (R122). -/
theorem execCall_cases (nnn : Addr) (s : State) :
    (s.sp ≠ 15 ∧ execCall nnn s = .next { s.push (s.pc + 2) with pc := nnn.setWidth 16 }) ∨
    (s.sp = 15 ∧ execCall nnn s = s.raise .stackOverflow (.call nnn) none) := by
  unfold execCall
  split_ifs with h
  · exact .inr ⟨h, rfl⟩
  · exact .inl ⟨h, rfl⟩

/-- A key test answers, or faults above 0xF under KEY_INDEX_POLICY = fault (R137). -/
theorem State.keyPressed_cases (s : State) (b : Byte) :
    (∃ down, s.keyPressed b = .ok down) ∨
    (s.cfg.keyIndex = .fault ∧ 0xF < b.toNat ∧ s.keyPressed b = .error b.toNat) := by
  unfold State.keyPressed
  split_ifs with h
  · exact .inl ⟨_, rfl⟩
  · cases hk : s.cfg.keyIndex with
    | notPressed => exact .inl ⟨_, rfl⟩
    | lowNibble => exact .inl ⟨_, rfl⟩
    | fault => exact .inr ⟨rfl, by omega, rfl⟩

/-- DRW draws, or faults when its sprite leaves memory (R162). -/
theorem execDrw_cases (x y : Reg) (n : Fin 16) (s : State) :
    ((n.val = 0 ∨ s.i.toNat + n.val ≤ 0x1000) ∧ execDrw x y n s =
      (State.setFlag { s with disp := (drawSprite (s.getV x).toNat (s.getV y).toNat (s.bytesAt s.i.toNat n.val) s.disp).1 }
        (flag (drawSprite (s.getV x).toNat (s.getV y).toNat (s.bytesAt s.i.toNat n.val) s.disp).2)).done) ∨
    (1 ≤ n.val ∧ 0x1000 < s.i.toNat + n.val ∧
      execDrw x y n s = s.raise .addressOutOfRange (.drw x y n) (some (s.i.toNat + n.val - 1))) := by
  rcases s.memRead_cases s.i.toNat n.val with ⟨h, e⟩ | ⟨h1, h2, e⟩
  · exact .inl ⟨h, by simp only [execDrw, e]⟩
  · exact .inr ⟨h1, h2, by simp only [execDrw, e]⟩

/-- LD Vx, [I] loads, or faults when its block leaves memory (R185). -/
theorem execLoadRegs_cases (x : Reg) (s : State) :
    (s.i.toNat + x.val < 0x1000 ∧
      execLoadRegs x s = (s.setRegBlock (s.bytesAt s.i.toNat (x.val + 1))).done) ∨
    (0x1000 ≤ s.i.toNat + x.val ∧
      execLoadRegs x s = s.raise .addressOutOfRange (.loadRegs x) (some (s.i.toNat + x.val))) := by
  rcases s.memRead_cases s.i.toNat (x.val + 1) with ⟨h, e⟩ | ⟨h1, h2, e⟩
  · exact .inl ⟨by omega, by simp only [execLoadRegs, e]⟩
  · exact .inr ⟨by omega, by simp only [execLoadRegs, e]; rfl⟩

/-- A store of bytes lands whole, or faults with nothing written (R56, R57). -/
theorem State.finishStore_memWrite_cases (s : State) (i : Instr) (a : Nat) (bs : List Byte) (hbs : bs ≠ []) :
    (StoreAllowed s a bs.length ∧ s.finishStore i (s.memWrite a bs) = (s.putBytes a bs).done) ∨
    (¬ StoreAllowed s a bs.length ∧ ∃ addr, s.finishStore i (s.memWrite a bs) = s.raise .addressOutOfRange i (some addr) ∧
      (addr = a + bs.length - 1 ∧ 0x1000 < a + bs.length ∨
        addr = a ∧ a + bs.length ≤ 0x1000 ∧ s.cfg.fontWrite = .fault ∧ a ≤ 0x04F)) := by
  rcases s.memWrite_cases a bs hbs with ⟨h, e⟩ | ⟨h, e⟩ | ⟨h, hf, ha, e⟩
  · exact .inl ⟨h, by rw [e]; rfl⟩
  · exact .inr ⟨fun hs => by have := hs.1; omega, _, by rw [e]; rfl, .inl ⟨rfl, h⟩⟩
  · exact .inr ⟨fun hs => by have := hs.2 hf; omega, _, by rw [e]; rfl, .inr ⟨rfl, h, hf, ha⟩⟩

/-- The bytes Fx33 stores are three. -/
@[simp] theorem decimalDigits_length (b : Byte) : (decimalDigits b).length = 3 := rfl

/-- The bytes Fx33 stores are some. -/
theorem decimalDigits_ne_nil (b : Byte) : decimalDigits b ≠ [] := List.cons_ne_nil _ _

/-- The bytes Fx55 stores are some. -/
theorem State.regBlock_ne_nil (s : State) (x : Reg) : s.regBlock x ≠ [] := by
  intro h
  have := s.regBlock_length x
  rw [h] at this
  simp at this

/-! ## A cycle -/

/-- Everything a cycle can do (R100): the fetch fault, an instruction, or Unknown. -/
theorem State.runCycle_cases (s : State) :
    (0xFFE < s.pc.toNat ∧ s.runCycle = .next (s.takeFault .addressOutOfRange none (some s.pc.toNat))) ∨
    (s.pc.toNat ≤ 0xFFE ∧ ∃ i, decodeWord s.fetchWord = .instr i ∧ s.runCycle = exec i s) ∨
    (s.pc.toNat ≤ 0xFFE ∧ ∃ w, decodeWord s.fetchWord = .unknown w ∧ s.runCycle = execUnknown w s) := by
  unfold State.runCycle
  split_ifs with h
  · exact .inl ⟨h, rfl⟩
  · cases hd : decodeWord s.fetchWord with
    | instr i => exact .inr (.inl ⟨by omega, i, rfl, rfl⟩)
    | unknown w => exact .inr (.inr ⟨by omega, w, rfl, rfl⟩)

/-- The CPU clock runs a cycle exactly where one is enabled (R101, R244). -/
theorem State.clockCpu_cases (s : State) :
    (CanCycle s ∧ s.clockCpu = s.beginCycle.runCycle) ∨ (¬ CanCycle s ∧ s.clockCpu = .next s) := by
  unfold State.clockCpu State.cycleEnabled CanCycle
  by_cases h1 : s.run = .running <;> by_cases h2 : s.loadStatus = .romTooLarge <;> simp [h1, h2]

/-! ## A step -/

/-- With an input left, a step delivers the oldest one. -/
theorem step_cons {s : State} {input : Input} {rest : List Input} (h : s.inputs = input :: rest) :
    step s = State.deliver { s with inputs := rest } input := by
  simp only [step, h]

/-- With no input left, a step clocks the core. -/
theorem step_nil {s : State} (h : s.inputs = []) : step s = s.runFree := by
  simp only [step, h]

/-- Where no input is left and a cycle may run, a step is that cycle. -/
theorem step_nil_of_canCycle {s : State} (h : s.inputs = []) (hc : CanCycle s) : step s = s.beginCycle.runCycle := by
  rw [step_nil h, State.runFree, hc.1]
  rcases s.clockCpu_cases with ⟨-, e⟩ | ⟨hn, -⟩
  · simp [hc.2, e]
  · exact absurd hc hn

/-- Everything a step that answers a next state did. -/
theorem step_cases {s t : State} (h : step s = .next t) :
    (s.inputs = [] ∧ CanCycle s ∧ s.beginCycle.runCycle = .next t) ∨
    ∃ input rest, s.inputs = input :: rest ∧ State.deliver { s with inputs := rest } input = .next t := by
  cases hi : s.inputs with
  | cons input rest => exact .inr ⟨input, rest, rfl, by rw [← step_cons hi, h]⟩
  | nil =>
    have hc : CanCycle s := by
      rw [step_nil hi] at h
      unfold State.runFree at h
      cases hr : s.run with
      | waiting x => simp [hr] at h
      | halted e pc w => simp [hr] at h
      | running =>
        refine ⟨hr, fun hl => ?_⟩
        simp [hr, hl] at h
    exact .inl ⟨rfl, hc, by rw [← step_nil_of_canCycle hi hc, h]⟩

/-- Everything the load port can do (R243, R244). -/
theorem State.loadRom_cases (s : State) (rom : List Byte) :
    (s.started = false ∧ s.loadStatus = .none ∧ rom.length ≤ 0xDFF ∧
      s.loadRom rom = .next { s.putBytes 0x200 rom with loadStatus := .ok }) ∨
    (s.started = false ∧ s.loadStatus = .none ∧ 0xDFF < rom.length ∧
      s.loadRom rom = .next { s with loadStatus := .romTooLarge }) ∨
    ((s.started = true ∨ s.loadStatus ≠ .none) ∧ s.loadRom rom = .refused .loadOutOfOrder) := by
  unfold State.loadRom
  split_ifs with h1 h2
  · exact .inr (.inr ⟨h1, rfl⟩)
  · simp only [not_or, not_not, Bool.not_eq_true] at h1
    exact .inr (.inl ⟨h1.1, h1.2, h2, rfl⟩)
  · simp only [not_or, not_not, Bool.not_eq_true] at h1
    exact .inl ⟨h1.1, h1.2, by omega, rfl⟩

/-- Everything a key event can do (R221): nothing while halted, the end of a key wait, or a key set. -/
theorem State.keyEvent_cases (s : State) (k : Key) (p : Bool) :
    (s.isHalted = true ∧ s.keyEvent k p = s) ∨
    (s.isHalted = false ∧ (s.run = .running ∨ p = false) ∧ s.keyEvent k p = s.setKey k p) ∨
    (p = true ∧ ∃ x, s.run = .waiting x ∧ s.keyEvent k p = s.completeKeyWait x k) := by
  unfold State.keyEvent State.isHalted
  cases s.run with
  | halted e pc w => exact .inl ⟨rfl, rfl⟩
  | running => exact .inr (.inl ⟨rfl, .inl rfl, rfl⟩)
  | waiting x =>
    cases p with
    | true => exact .inr (.inr ⟨rfl, x, rfl, rfl⟩)
    | false => exact .inr (.inl ⟨rfl, .inr rfl, rfl⟩)

/-! ## Timers -/

/-- One timer after one tick (R210). -/
theorem decrement_toNat (b : Byte) : (decrement b).toNat = b.toNat - 1 := by
  unfold decrement
  split_ifs with h
  · have := b.isLt
    rw [BitVec.toNat_sub, show (1 : Byte).toNat = 1 from rfl]
    omega
  · omega

/-- A tick changes the timers alone. -/
theorem State.tick_eq (s : State) : ∃ dt st, s.tick = { s with dt := dt, st := st } := by
  unfold State.tick
  split_ifs
  · exact ⟨s.dt, s.st, rfl⟩
  · exact ⟨_, _, rfl⟩

/-- Ticks change the timers alone. -/
theorem State.ticks_eq (n : Nat) (s : State) : ∃ dt st, State.ticks n s = { s with dt := dt, st := st } := by
  induction n generalizing s with
  | zero => exact ⟨s.dt, s.st, rfl⟩
  | succ n ih =>
    obtain ⟨d, t, e⟩ := s.tick_eq
    obtain ⟨d', t', e'⟩ := ih s.tick
    exact ⟨d', t', by rw [State.ticks, e', e]⟩

/-- Time passing changes the timers and the elapsed time alone (R212). -/
theorem State.elapse_eq (s : State) (d : Nat) :
    ∃ dt st e, s.elapse d = { s with dt := dt, st := st, elapsed := e } := by
  unfold State.elapse
  split_ifs
  · exact ⟨s.dt, s.st, s.elapsed, rfl⟩
  · obtain ⟨dt, st, h⟩ := State.ticks_eq ((s.elapsed + d) / s.unitsPerTick)
      { s with elapsed := (s.elapsed + d) % s.unitsPerTick }
    exact ⟨dt, st, _, h⟩

/-- A tick has a length: CPU_HZ is positive (R6). -/
theorem State.unitsPerTick_pos (s : State) : 0 < s.unitsPerTick := s.cfg.cpuHz.num.pos

/-- A CPU period has a length. -/
theorem State.unitsPerCycle_pos (s : State) : 0 < s.unitsPerCycle := Nat.mul_pos (by omega) s.cfg.cpuHz.den.pos

/-- Ticks of a core that is not halted (R210). -/
theorem State.ticks_toNat {s : State} (h : s.isHalted = false) (n : Nat) :
    (State.ticks n s).dt.toNat = s.dt.toNat - n ∧ (State.ticks n s).st.toNat = s.st.toNat - n := by
  induction n generalizing s with
  | zero => exact ⟨rfl, rfl⟩
  | succ n ih =>
    have e : s.tick = { s with dt := decrement s.dt, st := decrement s.st } := by simp [State.tick, h]
    obtain ⟨h1, h2⟩ := ih (s := s.tick) (by rw [e]; exact h)
    rw [State.ticks, h1, h2, e]
    simp only [decrement_toNat]
    omega

/-- Time passing on a core that is not halted (R212): the timers fall by the whole ticks in it, and the rest is
kept. -/
theorem State.elapse_toNat {s : State} (h : s.isHalted = false) (d : Nat) :
    (s.elapse d).dt.toNat = s.dt.toNat - (s.elapsed + d) / s.unitsPerTick ∧
    (s.elapse d).st.toNat = s.st.toNat - (s.elapsed + d) / s.unitsPerTick ∧
    (s.elapse d).elapsed = (s.elapsed + d) % s.unitsPerTick := by
  have e : s.elapse d =
      State.ticks ((s.elapsed + d) / s.unitsPerTick) { s with elapsed := (s.elapsed + d) % s.unitsPerTick } := by
    simp [State.elapse, h]
  obtain ⟨h1, h2⟩ := State.ticks_toNat (s := { s with elapsed := (s.elapsed + d) % s.unitsPerTick }) h
    ((s.elapsed + d) / s.unitsPerTick)
  obtain ⟨dt, st, e'⟩ := State.ticks_eq ((s.elapsed + d) / s.unitsPerTick)
    { s with elapsed := (s.elapsed + d) % s.unitsPerTick }
  refine ⟨by rw [e, h1], by rw [e, h2], by rw [e, e']⟩

end Sys2Proof.Machine
end

