-- ==== Sys2Proof/Laws/Exec.lean ====
section
/-! SUPPORT. Everything an instruction that answers a next state did, and everything a step that answers one did,
said once over all instructions and all inputs. -/

namespace Sys2Proof.Machine

/-! ## Instructions -/

/-- What an instruction that completed (or suspended) did: what it may have changed, and that nothing else changed. -/
structure Completed (i : Instr) (s t : State) : Prop where
  cfg : t.cfg = s.cfg
  reports : t.reports = s.reports
  loadStatus : t.loadStatus = s.loadStatus
  started : t.started = s.started
  inputs : t.inputs = s.inputs
  elapsed : t.elapsed = s.elapsed
  keys : t.keys = s.keys
  /-- Only Fx0A changes Run, and then nothing else (R171). -/
  run : t.run = s.run ∨ ∃ x, i = .ldVxK x ∧ t = { s with run := .waiting x }
  /-- Only Fx33 and Fx55 write memory, an allowed store from I on (R183, R184). -/
  mem : t.mem = s.mem ∨ ∃ bs : List Byte,
    ((∃ x, i = .ldB x ∧ bs.length = 3) ∨ ∃ x, i = .storeRegs x ∧ bs.length = x.val + 1) ∧
    StoreAllowed s s.i.toNat bs.length ∧ t.mem = s.mem.putAll s.cfg.fontTable s.i.toNat bs
  disp : t.disp = s.disp ∨ i = .cls ∨ ∃ x y n, i = .drw x y n
  index : t.i = s.i ∨ (∃ nnn, i = .ldI nnn) ∨ (∃ x, i = .addI x) ∨ ∃ x, i = .ldF x
  sp : t.sp = s.sp ∨ i = .ret ∨ ∃ nnn, i = .call nnn
  stack : t.stack = s.stack ∨ ∃ nnn, i = .call nnn ∧ t.stack = s.stack.set (s.sp + 1).val (s.pc + 2)
  dt : t.dt = s.dt ∨ ∃ x, i = .ldDTVx x
  st : t.st = s.st ∨ ∃ x, i = .ldSTVx x
  /-- The ways R24 lists: by 2 or 4, not yet (Fx0A), popped (RET), or a jump's target. -/
  pc : t.pc = s.pc + 2 ∨ t.pc = s.pc + 4 ∨ t.pc = s.pc ∨ t.pc = s.stackTop ∨ t.pc.toNat ≤ 0x10FE
  regs : RegsSameExcept (writtenRegs (decide (s.cfg.addiVf = .overflow)) i) s t

/-- An instruction that writes general registers alone and advances has completed. -/
theorem Completed.of_regs {i : Instr} {s : State} {t : State} (v : Vector Byte 16)
    (ht : t = State.advance { s with v := v })
    (hr : ∀ r, r ∉ writtenRegs (decide (s.cfg.addiVf = .overflow)) i → v[r.val] = s.getV r) : Completed i s t := by
  subst ht
  exact ⟨rfl, rfl, rfl, rfl, rfl, rfl, rfl, .inl rfl, .inl rfl, .inl rfl, .inl rfl, .inl rfl, .inl rfl, .inl rfl,
    .inl rfl, .inl rfl, hr⟩

/-- An instruction that writes PC alone has completed. -/
theorem Completed.of_pc {i : Instr} {s : State} (pc : Word)
    (h : pc = s.pc + 2 ∨ pc = s.pc + 4 ∨ pc = s.pc ∨ pc = s.stackTop ∨ pc.toNat ≤ 0x10FE) :
    Completed i s { s with pc := pc } :=
  ⟨rfl, rfl, rfl, rfl, rfl, rfl, rfl, .inl rfl, .inl rfl, .inl rfl, .inl rfl, .inl rfl, .inl rfl, .inl rfl,
    .inl rfl, h, fun _ _ => rfl⟩

/-- A skip has completed (R130). -/
theorem Completed.of_skipIf {i : Instr} {s : State} (c : Bool) : Completed i s (s.skipIf c) := by
  refine Completed.of_pc _ ?_
  cases c
  · exact .inl rfl
  · exact .inr (.inl rfl)

/-- An instruction that writes Vx, then VF as its flag, and advances has completed (R138). -/
theorem Completed.of_writeResult {i : Instr} {s : State} (x : Reg) (r f : Byte)
    (hw : writtenRegs (decide (s.cfg.addiVf = .overflow)) i = [x, VF]) :
    Completed i s ((s.setV x r).setFlag f).advance := by
  refine Completed.of_regs _ rfl fun q hq => ?_
  simp only [hw, List.mem_cons, List.not_mem_nil, or_false, not_or] at hq
  have h1 := State.getV_setFlag (s.setV x r) q f
  have h2 := State.getV_setV s x q r
  rw [if_neg hq.2] at h1
  rw [if_neg hq.1] at h2
  exact h1.trans h2

/-- An instruction that writes Vx alone and advances has completed. -/
theorem Completed.of_setV {i : Instr} {s : State} (x : Reg) (r : Byte)
    (hw : writtenRegs (decide (s.cfg.addiVf = .overflow)) i = [x]) : Completed i s (s.setV x r).advance := by
  refine Completed.of_regs _ rfl fun q hq => ?_
  simp only [hw, List.mem_cons, List.not_mem_nil, or_false] at hq
  have := State.getV_setV s x q r
  simpa [hq, State.getV] using this

/-- A store that landed has completed. -/
theorem Completed.of_store {i : Instr} {s : State} (bs : List Byte)
    (hi : (∃ x, i = .ldB x ∧ bs.length = 3) ∨ ∃ x, i = .storeRegs x ∧ bs.length = x.val + 1)
    (ha : StoreAllowed s s.i.toNat bs.length) : Completed i s (s.putBytes s.i.toNat bs).advance :=
  ⟨rfl, rfl, rfl, rfl, rfl, rfl, rfl, .inl rfl, .inr ⟨bs, hi, ha, rfl⟩, .inl rfl, .inl rfl, .inl rfl, .inl rfl,
    .inl rfl, .inl rfl, .inl rfl, fun _ _ => rfl⟩

/-- A zero-extended 12-bit target is a legal PC (R26). -/
theorem jumpTarget_le (nnn : Addr) : (nnn.setWidth 16 : Word).toNat ≤ 0x10FE := by
  have := nnn.isLt
  simp only [BitVec.toNat_setWidth]
  omega

/-- Everything an instruction can do: it takes a fault that names its own word, or it completes. -/
theorem exec_cases {i : Instr} {s t : State} (h : exec i s = .next t) :
    (∃ e addr, t = s.takeFault e (some (encode i)) addr) ∨ Completed i s t := by
  cases i with
  | ret =>
    rcases execRet_cases s with ⟨-, e⟩ | ⟨-, e⟩ <;> cases e.symm.trans h
    · exact .inr ⟨rfl, rfl, rfl, rfl, rfl, rfl, rfl, .inl rfl, .inl rfl, .inl rfl, .inl rfl, .inr (.inl rfl), .inl rfl,
        .inl rfl, .inl rfl, .inr (.inr (.inr (.inl rfl))), fun _ _ => rfl⟩
    · exact .inl ⟨_, _, rfl⟩
  | call nnn =>
    rcases execCall_cases nnn s with ⟨-, e⟩ | ⟨-, e⟩ <;> cases e.symm.trans h
    · exact .inr ⟨rfl, rfl, rfl, rfl, rfl, rfl, rfl, .inl rfl, .inl rfl, .inl rfl, .inl rfl, .inr (.inr ⟨nnn, rfl⟩),
        .inr ⟨nnn, rfl, rfl⟩, .inl rfl, .inl rfl, .inr (.inr (.inr (.inr (jumpTarget_le nnn)))), fun _ _ => rfl⟩
    · exact .inl ⟨_, _, rfl⟩
  | drw x y n =>
    rcases execDrw_cases x y n s with ⟨-, e⟩ | ⟨-, -, e⟩ <;> cases e.symm.trans h
    · refine .inr ⟨rfl, rfl, rfl, rfl, rfl, rfl, rfl, .inl rfl, .inl rfl, .inr (.inr ⟨x, y, n, rfl⟩), .inl rfl,
        .inl rfl, .inl rfl, .inl rfl, .inl rfl, .inl rfl, fun q hq => ?_⟩
      have hq : ¬ q = VF := by simpa [writtenRegs] using hq
      simp only [State.advance_getV, State.getV_setFlag, hq, if_false]
      rfl
    · exact .inl ⟨_, _, rfl⟩
  | loadRegs x =>
    rcases execLoadRegs_cases x s with ⟨-, e⟩ | ⟨-, e⟩ <;> cases e.symm.trans h
    · refine .inr (Completed.of_regs _ rfl fun q hq => ?_)
      have hq : x < q := by simpa [writtenRegs] using hq
      have hlt : (s.bytesAt s.i.toNat (x.val + 1)).length ≤ q.val := by
        rw [State.bytesAt_length]
        exact hq
      have := State.getV_setRegBlock s (s.bytesAt s.i.toNat (x.val + 1)) q
      rw [List.getD_eq_default _ _ hlt] at this
      exact this
    · exact .inl ⟨_, _, rfl⟩
  | skp x =>
    rcases s.keyPressed_cases (s.getV x) with ⟨d, e⟩ | ⟨-, -, e⟩ <;> simp only [exec, execSkp, e] at h <;> cases h
    · exact .inr (Completed.of_skipIf _)
    · exact .inl ⟨_, _, rfl⟩
  | sknp x =>
    rcases s.keyPressed_cases (s.getV x) with ⟨d, e⟩ | ⟨-, -, e⟩ <;> simp only [exec, execSknp, e] at h <;> cases h
    · exact .inr (Completed.of_skipIf _)
    · exact .inl ⟨_, _, rfl⟩
  | addI x =>
    right
    cases ha : s.cfg.addiVf <;> simp only [exec, execAddI, ha] at h <;> cases h
    · exact ⟨rfl, rfl, rfl, rfl, rfl, rfl, rfl, .inl rfl, .inl rfl, .inl rfl, .inr (.inr (.inl ⟨x, rfl⟩)), .inl rfl,
        .inl rfl, .inl rfl, .inl rfl, .inl rfl, fun _ _ => rfl⟩
    · refine ⟨rfl, rfl, rfl, rfl, rfl, rfl, rfl, .inl rfl, .inl rfl, .inl rfl, .inr (.inr (.inl ⟨x, rfl⟩)), .inl rfl,
        .inl rfl, .inl rfl, .inl rfl, .inl rfl, fun q hq => ?_⟩
      have hq : ¬ q = VF := by simpa [writtenRegs, ha] using hq
      simp only [State.advance_getV, State.getV_setFlag, hq, if_false]
      rfl
  | ldB x =>
    rcases s.finishStore_memWrite_cases (.ldB x) s.i.toNat _ (decimalDigits_ne_nil (s.getV x)) with
      ⟨ha, e⟩ | ⟨-, a, e, -⟩ <;> cases e.symm.trans h
    · exact .inr (Completed.of_store _ (.inl ⟨x, rfl, rfl⟩) ha)
    · exact .inl ⟨_, _, rfl⟩
  | storeRegs x =>
    rcases s.finishStore_memWrite_cases (.storeRegs x) s.i.toNat _ (s.regBlock_ne_nil x) with
      ⟨ha, e⟩ | ⟨-, a, e, -⟩ <;> cases e.symm.trans h
    · exact .inr (Completed.of_store _ (.inr ⟨x, rfl, s.regBlock_length x⟩) ha)
    · exact .inl ⟨_, _, rfl⟩
  | seByte x kk => cases h; exact .inr (Completed.of_skipIf _)
  | sneByte x kk => cases h; exact .inr (Completed.of_skipIf _)
  | seReg x y => cases h; exact .inr (Completed.of_skipIf _)
  | sneReg x y => cases h; exact .inr (Completed.of_skipIf _)
  | jp nnn => cases h; exact .inr (Completed.of_pc _ (.inr (.inr (.inr (.inr (jumpTarget_le nnn))))))
  | jpV0 nnn =>
    cases h
    refine .inr (Completed.of_pc _ (.inr (.inr (.inr (.inr ?_)))))
    have h1 := nnn.isLt
    have h2 := (s.getV 0).isLt
    simp only [BitVec.toNat_add, BitVec.toNat_setWidth]
    omega
  | cls =>
    cases h
    exact .inr ⟨rfl, rfl, rfl, rfl, rfl, rfl, rfl, .inl rfl, .inl rfl, .inr (.inl rfl), .inl rfl, .inl rfl, .inl rfl,
      .inl rfl, .inl rfl, .inl rfl, fun _ _ => rfl⟩
  | ldI nnn =>
    cases h
    exact .inr ⟨rfl, rfl, rfl, rfl, rfl, rfl, rfl, .inl rfl, .inl rfl, .inl rfl, .inr (.inl ⟨nnn, rfl⟩), .inl rfl,
      .inl rfl, .inl rfl, .inl rfl, .inl rfl, fun _ _ => rfl⟩
  | ldF x =>
    cases h
    exact .inr ⟨rfl, rfl, rfl, rfl, rfl, rfl, rfl, .inl rfl, .inl rfl, .inl rfl, .inr (.inr (.inr ⟨x, rfl⟩)), .inl rfl,
      .inl rfl, .inl rfl, .inl rfl, .inl rfl, fun _ _ => rfl⟩
  | ldDTVx x =>
    cases h
    exact .inr ⟨rfl, rfl, rfl, rfl, rfl, rfl, rfl, .inl rfl, .inl rfl, .inl rfl, .inl rfl, .inl rfl, .inl rfl,
      .inr ⟨x, rfl⟩, .inl rfl, .inl rfl, fun _ _ => rfl⟩
  | ldSTVx x =>
    cases h
    exact .inr ⟨rfl, rfl, rfl, rfl, rfl, rfl, rfl, .inl rfl, .inl rfl, .inl rfl, .inl rfl, .inl rfl, .inl rfl,
      .inl rfl, .inr ⟨x, rfl⟩, .inl rfl, fun _ _ => rfl⟩
  | ldVxK x =>
    cases h
    exact .inr ⟨rfl, rfl, rfl, rfl, rfl, rfl, rfl, .inr ⟨x, rfl, rfl⟩, .inl rfl, .inl rfl, .inl rfl, .inl rfl, .inl rfl,
      .inl rfl, .inl rfl, .inr (.inr (.inl rfl)), fun _ _ => rfl⟩
  | rnd x kk =>
    cases h
    obtain ⟨h1, h2, h3, h4, h5, h6, h7, h8, h9, h10, h11, h12, h13, h14, h15, h16, h17⟩ :=
      Completed.of_setV (i := .rnd x kk) (s := s.takeRnd) x (s.rndByte &&& kk) rfl
    refine .inr ⟨h1, h2, h3, h4, h5, h6, h7, .inl rfl, .inl rfl, h10, h11, h12, .inl rfl, h14, h15, h16, h17⟩
  | ldByte x kk => cases h; exact .inr (Completed.of_setV x _ rfl)
  | addByte x kk => cases h; exact .inr (Completed.of_setV x _ rfl)
  | ldReg x y => cases h; exact .inr (Completed.of_setV x _ rfl)
  | orReg x y => cases h; exact .inr (Completed.of_setV x _ rfl)
  | andReg x y => cases h; exact .inr (Completed.of_setV x _ rfl)
  | xorReg x y => cases h; exact .inr (Completed.of_setV x _ rfl)
  | ldVxDT x => cases h; exact .inr (Completed.of_setV x _ rfl)
  | addReg x y => cases h; exact .inr (Completed.of_writeResult x _ _ rfl)
  | subReg x y => cases h; exact .inr (Completed.of_writeResult x _ _ rfl)
  | shr x y => cases h; exact .inr (Completed.of_writeResult x _ _ rfl)
  | subn x y => cases h; exact .inr (Completed.of_writeResult x _ _ rfl)
  | shl x y => cases h; exact .inr (Completed.of_writeResult x _ _ rfl)

/-! ## Steps -/

/-- Everything a step that answers a next state did, with the input it took. -/
inductive Stepped (s : State) : State → Prop where
  /-- A cycle found PC beyond the last legal fetch (R102). -/
  | fetchFault (rest : List Input) (hc : CanCycle s) (hp : 0xFFE < s.pc.toNat) :
    Stepped s (State.takeFault { s with inputs := rest, started := true } .addressOutOfRange none (some s.pc.toNat))
  /-- A cycle took a fault inside instruction i. -/
  | instrFault (rest : List Input) (i : Instr) (e : FatalFault) (addr : Option Nat) (hc : CanCycle s)
    (hp : s.pc.toNat ≤ 0xFFE) :
    Stepped s (State.takeFault { s with inputs := rest, started := true } e (some (encode i)) addr)
  /-- A cycle completed instruction i. -/
  | completed (rest : List Input) (i : Instr) (t : State) (hc : CanCycle s) (hp : s.pc.toNat ≤ 0xFFE)
    (h : Completed i { s with inputs := rest, started := true } t) : Stepped s t
  /-- A cycle met an Unknown word (R106). -/
  | unknown (rest : List Input) (w : Word) (hc : CanCycle s) (hp : s.pc.toNat ≤ 0xFFE) :
    Stepped s
      { s with
        inputs := rest
        started := true
        pc := s.pc + 2
        reports := s.reports ++ [⟨.unknownOpcode, s.pc, some w, none⟩] }
  /-- A clock that runs nothing, a tick, time passing, a frame read, or any of them on a halted core: the timers
  and the elapsed time alone may change, and on a halted core not even they. -/
  | timers (rest : List Input) (dt st : Byte) (e : Nat)
    (halted : s.isHalted = true → dt = s.dt ∧ st = s.st ∧ e = s.elapsed) :
    Stepped s { s with inputs := rest, dt := dt, st := st, elapsed := e }
  /-- Init (R240). -/
  | init (rest : List Input) (hi : s.inputs = .init :: rest) : Stepped s (State.init { s with inputs := rest })
  /-- A ROM was loaded (R243). -/
  | loaded (rest : List Input) (rom : List Byte) (hs : s.started = false) (hl : rom.length ≤ 0xDFF) :
    Stepped s { ({ s with inputs := rest } : State).putBytes 0x200 rom with loadStatus := .ok }
  /-- A ROM was too large (R244). -/
  | tooLarge (rest : List Input) (hs : s.started = false) : Stepped s { s with inputs := rest, loadStatus := .romTooLarge }
  /-- A key event set its key (R221). -/
  | key (rest : List Input) (k : Key) (p : Bool) (h : s.isHalted = false) :
    Stepped s (State.setKey { s with inputs := rest } k p)
  /-- A key press completed Fx0A (R172). -/
  | keyWait (rest : List Input) (k : Key) (x : Reg) (hi : s.inputs = .keyEvent k true :: rest) (hw : s.run = .waiting x) :
    Stepped s (State.completeKeyWait { s with inputs := rest } x k)
  /-- A byte came in on the rnd port (R224). -/
  | rnd (rest : List Input) (b : Byte) : Stepped s { s with inputs := rest, rndIn := s.rndIn ++ [b] }

/-- A cycle is one of the four cycle cases. -/
theorem Stepped.of_runCycle {s t : State} {rest : List Input} (hc : CanCycle s)
    (h : State.runCycle { s with inputs := rest, started := true } = .next t) : Stepped s t := by
  rcases State.runCycle_cases { s with inputs := rest, started := true } with ⟨hp, e⟩ | ⟨hp, i, -, e⟩ | ⟨hp, w, -, e⟩
  · cases e.symm.trans h
    exact .fetchFault rest hc hp
  · rcases exec_cases (e.symm.trans h) with ⟨f, addr, rfl⟩ | hd
    · exact .instrFault rest i f addr hc hp
    · exact .completed rest i t hc hp hd
  · cases e.symm.trans h
    exact .unknown rest w hc hp

/-- Time passing is one of the timer cases. -/
theorem Stepped.of_elapse {s : State} (rest : List Input) (d : Nat) :
    Stepped s (State.elapse { s with inputs := rest } d) := by
  by_cases hh : s.isHalted = true
  · rw [show State.elapse { s with inputs := rest } d = { s with inputs := rest } from if_pos hh]
    exact .timers rest s.dt s.st s.elapsed fun _ => ⟨rfl, rfl, rfl⟩
  · obtain ⟨dt, st, el, e'⟩ := State.elapse_eq { s with inputs := rest } d
    rw [e']
    exact .timers rest dt st el fun h => absurd h hh

/-- Everything a step that answers a next state did. -/
theorem step_inversion {s t : State} (h : step s = .next t) : Stepped s t := by
  rcases step_cases h with ⟨hi, hc, e⟩ | ⟨input, rest, hi, e⟩
  · exact Stepped.of_runCycle (rest := []) hc (by rw [← hi]; exact e)
  · cases input with
    | init => cases e; exact .init rest hi
    | load rom =>
      rcases State.loadRom_cases { s with inputs := rest } rom with ⟨hs, -, hl, e'⟩ | ⟨hs, -, -, e'⟩ | ⟨-, e'⟩ <;>
        cases e'.symm.trans e
      · exact .loaded rest rom hs hl
      · exact .tooLarge rest hs
    | cpuClock =>
      rcases State.clockCpu_cases { s with inputs := rest } with ⟨hc, e'⟩ | ⟨-, e'⟩
      · exact Stepped.of_runCycle (rest := rest) hc (e'.symm.trans e)
      · cases e'.symm.trans e
        exact .timers rest s.dt s.st s.elapsed fun _ => ⟨rfl, rfl, rfl⟩
    | timerClock =>
      cases e
      by_cases hh : s.isHalted = true
      · rw [show State.tick { s with inputs := rest } = { s with inputs := rest } from if_pos hh]
        exact .timers rest s.dt s.st s.elapsed fun _ => ⟨rfl, rfl, rfl⟩
      · obtain ⟨dt, st, e'⟩ := State.tick_eq { s with inputs := rest }
        rw [e']
        exact .timers rest dt st s.elapsed fun h => absurd h hh
    | elapse d => cases e; exact .of_elapse rest d
    | cpuPeriod => cases e; exact .of_elapse rest _
    | frame => cases e; exact .timers rest s.dt s.st s.elapsed fun _ => ⟨rfl, rfl, rfl⟩
    | shutdown => cases e
    | rnd b => cases e; exact .rnd rest b
    | keyEvent k p =>
      rcases State.keyEvent_cases { s with inputs := rest } k p with ⟨-, e'⟩ | ⟨hh, -, e'⟩ | ⟨rfl, x, hw, e'⟩ <;>
        cases (congrArg Host.Outcome.next e').symm.trans e
      · exact .timers rest s.dt s.st s.elapsed fun _ => ⟨rfl, rfl, rfl⟩
      · exact .key rest k p hh
      · exact .keyWait rest k x hi hw

end Sys2Proof.Machine
end

