-- ==== Sys2Proof/Laws/PerInstr.lean ====
section
/-! SUPPORT. The per-instruction family RowMatch: every instruction's word matches its own row of 30_encoding.md R84. -/

namespace Sys2Proof.Laws.RowMatch

/-- The row of an instruction in R84, counted from 0. -/
def rowNumber : Instr → Nat
  | .cls => 0
  | .ret => 1
  | .jp _ => 2
  | .call _ => 3
  | .seByte _ _ => 4
  | .sneByte _ _ => 5
  | .seReg _ _ => 6
  | .ldByte _ _ => 7
  | .addByte _ _ => 8
  | .ldReg _ _ => 9
  | .orReg _ _ => 10
  | .andReg _ _ => 11
  | .xorReg _ _ => 12
  | .addReg _ _ => 13
  | .subReg _ _ => 14
  | .shr _ _ => 15
  | .subn _ _ => 16
  | .shl _ _ => 17
  | .sneReg _ _ => 18
  | .ldI _ => 19
  | .jpV0 _ => 20
  | .rnd _ _ => 21
  | .drw _ _ _ => 22
  | .skp _ => 23
  | .sknp _ => 24
  | .ldVxDT _ => 25
  | .ldVxK _ => 26
  | .ldDTVx _ => 27
  | .ldSTVx _ => 28
  | .addI _ => 29
  | .ldF _ => 30
  | .ldB _ => 31
  | .storeRegs _ => 32
  | .loadRegs _ => 33

/-- The encoded word has its row's fixed bits, whatever the operands. -/
def Statement (i : Instr) : Prop := (opcodeRows[rowNumber i]?).map (·.covers (encode i)) = some true

/-- A row covers a word that has its family and its sub-opcode bits. -/
theorem covers_of_bits {p : String} {code sub : Nat} {w : Word} (hs : sub < 4096) (hc : code < 65536)
    (hf : w.toNat / 4096 = code / 4096) (hlow : w.toNat % 4096 &&& sub = code % 4096) :
    (⟨p, BitVec.ofNat 16 code, BitVec.ofNat 16 (0xF000 + sub)⟩ : OpRow).covers w = true := by
  simpa [OpRow.covers] using and_mask_eq hs code hc hf hlow

/-- The sub-opcode bits w[3:0] are a remainder. -/
theorem low_nibble_bits (a : Nat) : a &&& 0xF = a % 16 := Nat.and_two_pow_sub_one_eq_mod a 4

/-- The sub-opcode bits w[7:0] are a remainder. -/
theorem low_byte_bits (a : Nat) : a &&& 0xFF = a % 256 := Nat.and_two_pow_sub_one_eq_mod a 8

theorem cls : Statement (.cls) := rfl

theorem ret : Statement (.ret) := rfl

theorem jp (nnn : Addr) : Statement (.jp nnn) := by
  have := nnn.isLt
  have h := formatA_toNat (code := 0x1000) (by omega) nnn
  exact congrArg some (covers_of_bits (code := 0x1000) (sub := 0x000) (by omega) (by omega) (by simp only [encode]; omega)
    (by simp only [encode, h]; simp))

theorem call (nnn : Addr) : Statement (.call nnn) := by
  have := nnn.isLt
  have h := formatA_toNat (code := 0x2000) (by omega) nnn
  exact congrArg some (covers_of_bits (code := 0x2000) (sub := 0x000) (by omega) (by omega) (by simp only [encode]; omega)
    (by simp only [encode, h]; simp))

theorem seByte (x : Reg) (kk : Byte) : Statement (.seByte x kk) := by
  have := kk.isLt
  have h := formatXK_toNat (code := 0x3000) (by omega) x kk
  exact congrArg some (covers_of_bits (code := 0x3000) (sub := 0x000) (by omega) (by omega) (by simp only [encode]; omega)
    (by simp only [encode, h]; simp))

theorem sneByte (x : Reg) (kk : Byte) : Statement (.sneByte x kk) := by
  have := kk.isLt
  have h := formatXK_toNat (code := 0x4000) (by omega) x kk
  exact congrArg some (covers_of_bits (code := 0x4000) (sub := 0x000) (by omega) (by omega) (by simp only [encode]; omega)
    (by simp only [encode, h]; simp))

theorem seReg (x y : Reg) : Statement (.seReg x y) := by
  have h := formatXY_toNat (code := 0x5000) (by omega) x y
  exact congrArg some (covers_of_bits (code := 0x5000) (sub := 0x00F) (by omega) (by omega) (by simp only [encode]; omega)
    (by simp only [encode, h]; rw [low_nibble_bits]; omega))

theorem ldByte (x : Reg) (kk : Byte) : Statement (.ldByte x kk) := by
  have := kk.isLt
  have h := formatXK_toNat (code := 0x6000) (by omega) x kk
  exact congrArg some (covers_of_bits (code := 0x6000) (sub := 0x000) (by omega) (by omega) (by simp only [encode]; omega)
    (by simp only [encode, h]; simp))

theorem addByte (x : Reg) (kk : Byte) : Statement (.addByte x kk) := by
  have := kk.isLt
  have h := formatXK_toNat (code := 0x7000) (by omega) x kk
  exact congrArg some (covers_of_bits (code := 0x7000) (sub := 0x000) (by omega) (by omega) (by simp only [encode]; omega)
    (by simp only [encode, h]; simp))

theorem ldReg (x y : Reg) : Statement (.ldReg x y) := by
  have h := formatXY_toNat (code := 0x8000) (by omega) x y
  exact congrArg some (covers_of_bits (code := 0x8000) (sub := 0x00F) (by omega) (by omega) (by simp only [encode]; omega)
    (by simp only [encode, h]; rw [low_nibble_bits]; omega))

theorem orReg (x y : Reg) : Statement (.orReg x y) := by
  have h := formatXY_toNat (code := 0x8001) (by omega) x y
  exact congrArg some (covers_of_bits (code := 0x8001) (sub := 0x00F) (by omega) (by omega) (by simp only [encode]; omega)
    (by simp only [encode, h]; rw [low_nibble_bits]; omega))

theorem andReg (x y : Reg) : Statement (.andReg x y) := by
  have h := formatXY_toNat (code := 0x8002) (by omega) x y
  exact congrArg some (covers_of_bits (code := 0x8002) (sub := 0x00F) (by omega) (by omega) (by simp only [encode]; omega)
    (by simp only [encode, h]; rw [low_nibble_bits]; omega))

theorem xorReg (x y : Reg) : Statement (.xorReg x y) := by
  have h := formatXY_toNat (code := 0x8003) (by omega) x y
  exact congrArg some (covers_of_bits (code := 0x8003) (sub := 0x00F) (by omega) (by omega) (by simp only [encode]; omega)
    (by simp only [encode, h]; rw [low_nibble_bits]; omega))

theorem addReg (x y : Reg) : Statement (.addReg x y) := by
  have h := formatXY_toNat (code := 0x8004) (by omega) x y
  exact congrArg some (covers_of_bits (code := 0x8004) (sub := 0x00F) (by omega) (by omega) (by simp only [encode]; omega)
    (by simp only [encode, h]; rw [low_nibble_bits]; omega))

theorem subReg (x y : Reg) : Statement (.subReg x y) := by
  have h := formatXY_toNat (code := 0x8005) (by omega) x y
  exact congrArg some (covers_of_bits (code := 0x8005) (sub := 0x00F) (by omega) (by omega) (by simp only [encode]; omega)
    (by simp only [encode, h]; rw [low_nibble_bits]; omega))

theorem shr (x y : Reg) : Statement (.shr x y) := by
  have h := formatXY_toNat (code := 0x8006) (by omega) x y
  exact congrArg some (covers_of_bits (code := 0x8006) (sub := 0x00F) (by omega) (by omega) (by simp only [encode]; omega)
    (by simp only [encode, h]; rw [low_nibble_bits]; omega))

theorem subn (x y : Reg) : Statement (.subn x y) := by
  have h := formatXY_toNat (code := 0x8007) (by omega) x y
  exact congrArg some (covers_of_bits (code := 0x8007) (sub := 0x00F) (by omega) (by omega) (by simp only [encode]; omega)
    (by simp only [encode, h]; rw [low_nibble_bits]; omega))

theorem shl (x y : Reg) : Statement (.shl x y) := by
  have h := formatXY_toNat (code := 0x800E) (by omega) x y
  exact congrArg some (covers_of_bits (code := 0x800E) (sub := 0x00F) (by omega) (by omega) (by simp only [encode]; omega)
    (by simp only [encode, h]; rw [low_nibble_bits]; omega))

theorem sneReg (x y : Reg) : Statement (.sneReg x y) := by
  have h := formatXY_toNat (code := 0x9000) (by omega) x y
  exact congrArg some (covers_of_bits (code := 0x9000) (sub := 0x00F) (by omega) (by omega) (by simp only [encode]; omega)
    (by simp only [encode, h]; rw [low_nibble_bits]; omega))

theorem ldI (nnn : Addr) : Statement (.ldI nnn) := by
  have := nnn.isLt
  have h := formatA_toNat (code := 0xA000) (by omega) nnn
  exact congrArg some (covers_of_bits (code := 0xA000) (sub := 0x000) (by omega) (by omega) (by simp only [encode]; omega)
    (by simp only [encode, h]; simp))

theorem jpV0 (nnn : Addr) : Statement (.jpV0 nnn) := by
  have := nnn.isLt
  have h := formatA_toNat (code := 0xB000) (by omega) nnn
  exact congrArg some (covers_of_bits (code := 0xB000) (sub := 0x000) (by omega) (by omega) (by simp only [encode]; omega)
    (by simp only [encode, h]; simp))

theorem rnd (x : Reg) (kk : Byte) : Statement (.rnd x kk) := by
  have := kk.isLt
  have h := formatXK_toNat (code := 0xC000) (by omega) x kk
  exact congrArg some (covers_of_bits (code := 0xC000) (sub := 0x000) (by omega) (by omega) (by simp only [encode]; omega)
    (by simp only [encode, h]; simp))

theorem drw (x y : Reg) (n : Fin 16) : Statement (.drw x y n) := by
  have h := formatXYN_toNat (code := 0xD000) (by omega) x y n
  exact congrArg some (covers_of_bits (code := 0xD000) (sub := 0x000) (by omega) (by omega) (by simp only [encode]; omega)
    (by simp only [encode, h]; simp))

theorem skp (x : Reg) : Statement (.skp x) := by
  have h := formatX_toNat (code := 0xE09E) (by omega) x
  exact congrArg some (covers_of_bits (code := 0xE09E) (sub := 0x0FF) (by omega) (by omega) (by simp only [encode]; omega)
    (by simp only [encode, h]; rw [low_byte_bits]; omega))

theorem sknp (x : Reg) : Statement (.sknp x) := by
  have h := formatX_toNat (code := 0xE0A1) (by omega) x
  exact congrArg some (covers_of_bits (code := 0xE0A1) (sub := 0x0FF) (by omega) (by omega) (by simp only [encode]; omega)
    (by simp only [encode, h]; rw [low_byte_bits]; omega))

theorem ldVxDT (x : Reg) : Statement (.ldVxDT x) := by
  have h := formatX_toNat (code := 0xF007) (by omega) x
  exact congrArg some (covers_of_bits (code := 0xF007) (sub := 0x0FF) (by omega) (by omega) (by simp only [encode]; omega)
    (by simp only [encode, h]; rw [low_byte_bits]; omega))

theorem ldVxK (x : Reg) : Statement (.ldVxK x) := by
  have h := formatX_toNat (code := 0xF00A) (by omega) x
  exact congrArg some (covers_of_bits (code := 0xF00A) (sub := 0x0FF) (by omega) (by omega) (by simp only [encode]; omega)
    (by simp only [encode, h]; rw [low_byte_bits]; omega))

theorem ldDTVx (x : Reg) : Statement (.ldDTVx x) := by
  have h := formatX_toNat (code := 0xF015) (by omega) x
  exact congrArg some (covers_of_bits (code := 0xF015) (sub := 0x0FF) (by omega) (by omega) (by simp only [encode]; omega)
    (by simp only [encode, h]; rw [low_byte_bits]; omega))

theorem ldSTVx (x : Reg) : Statement (.ldSTVx x) := by
  have h := formatX_toNat (code := 0xF018) (by omega) x
  exact congrArg some (covers_of_bits (code := 0xF018) (sub := 0x0FF) (by omega) (by omega) (by simp only [encode]; omega)
    (by simp only [encode, h]; rw [low_byte_bits]; omega))

theorem addI (x : Reg) : Statement (.addI x) := by
  have h := formatX_toNat (code := 0xF01E) (by omega) x
  exact congrArg some (covers_of_bits (code := 0xF01E) (sub := 0x0FF) (by omega) (by omega) (by simp only [encode]; omega)
    (by simp only [encode, h]; rw [low_byte_bits]; omega))

theorem ldF (x : Reg) : Statement (.ldF x) := by
  have h := formatX_toNat (code := 0xF029) (by omega) x
  exact congrArg some (covers_of_bits (code := 0xF029) (sub := 0x0FF) (by omega) (by omega) (by simp only [encode]; omega)
    (by simp only [encode, h]; rw [low_byte_bits]; omega))

theorem ldB (x : Reg) : Statement (.ldB x) := by
  have h := formatX_toNat (code := 0xF033) (by omega) x
  exact congrArg some (covers_of_bits (code := 0xF033) (sub := 0x0FF) (by omega) (by omega) (by simp only [encode]; omega)
    (by simp only [encode, h]; rw [low_byte_bits]; omega))

theorem storeRegs (x : Reg) : Statement (.storeRegs x) := by
  have h := formatX_toNat (code := 0xF055) (by omega) x
  exact congrArg some (covers_of_bits (code := 0xF055) (sub := 0x0FF) (by omega) (by omega) (by simp only [encode]; omega)
    (by simp only [encode, h]; rw [low_byte_bits]; omega))

theorem loadRegs (x : Reg) : Statement (.loadRegs x) := by
  have h := formatX_toNat (code := 0xF065) (by omega) x
  exact congrArg some (covers_of_bits (code := 0xF065) (sub := 0x0FF) (by omega) (by omega) (by simp only [encode]; omega)
    (by simp only [encode, h]; rw [low_byte_bits]; omega))

end Sys2Proof.Laws.RowMatch
end

