-- ==== Sys2Proof/Tests/Slice0.lean ====
section
/-! SUPPORT. Tests of single steps, each from a row of 95_test_vectors.md or an example of a rule, named in its
comment; words written out from the encodings of 30_encoding.md; and for every obligation with hypotheses a state
that meets them. -/

namespace Sys2Proof.Tests

open Sys2Proof.Machine

/-! ## Helpers -/

/-- A state with general registers set. -/
def withRegs (s : State) : List (Reg × Byte) → State
  | [] => s
  | (r, b) :: rest => withRegs (s.setV r b) rest

/-- The reset state with general registers set. -/
def regs (l : List (Reg × Byte)) : State := withRegs State.reset l

/-- The next state of an answer. -/
def nextOf : Result → Option State
  | .next t => some t
  | .fault _ => none
  | .refused _ => none

/-- What is seen after one step that fetches `w` at PC. -/
def after {α : Type} (s : State) (w : Nat) (see : State → α) : Option α :=
  (nextOf (step (s.withFetchWord 16 w))).map see

/-- What is seen after the inputs, one step each. -/
def afterInputs {α : Type} (s : State) (inputs : List Input) (see : State → α) : Option α :=
  match (core.run inputs.length { s with inputs := inputs } : Host.Outcome State Fault Refusal) with
  | .next t => some (see t)
  | .fault _ => none
  | .refused _ => none

/-- A state with some parameters changed. -/
def withCfg (s : State) (f : Config → Config) : State := { s with cfg := f s.cfg }

/-- Reset on a core with CPU_HZ = num / den. -/
def atRate (num den : ℕ+) : State := withCfg State.reset fun c => { c with cpuHz := ⟨num, den⟩ }

/-- A state with bytes in memory. -/
def withBytes (s : State) (a : Nat) (bs : List Byte) : State := s.putBytes a bs

/-- The last report. -/
def lastReport (s : State) : Option Report := s.reports.getLast?

/-! ## Well-formedness: the one check there is refuses a known word called Unknown (30_encoding.md R85) -/

theorem test_wf_refuses_known_word_as_unknown :
    Decoded.wf (.unknown 0x00E0) = false ∧ Decoded.wf (.unknown 0x8AB6) = false ∧
    Decoded.wf (.unknown 0xFF65) = false ∧ Decoded.wf (.unknown 0x1000) = false := by decide

theorem test_wf_accepts_unknown_words_and_instructions :
    Decoded.wf (.unknown 0x0000) = true ∧ Decoded.wf (.unknown 0x8AB8) = true ∧ Decoded.wf (.instr .cls) = true := by
  decide

/-! ## Decoding: words written out bit by bit from 30_encoding.md R82 -/

/-- Format N: 0000 0000 1110 0000 and 0000 0000 1110 1110 (E1, E2). -/
theorem test_decode_formatN :
    decodeWord 0b0000000011100000 = .instr .cls ∧ decodeWord 0b0000000011101110 = .instr .ret := by decide

/-- Format A: ffff nnnn nnnn nnnn, with nnn = 234, 206, 300 and A00 (E14). -/
theorem test_decode_formatA :
    decodeWord 0b0001001000110100 = .instr (.jp 0x234) ∧ decodeWord 0b0010001000000110 = .instr (.call 0x206) ∧
    decodeWord 0b1010001100000000 = .instr (.ldI 0x300) ∧ decodeWord 0b1011101000000000 = .instr (.jpV0 0xA00) := by
  decide

/-- Format XK: ffff xxxx kkkk kkkk. -/
theorem test_decode_formatXK :
    decodeWord 0b0011001101000010 = .instr (.seByte 3 0x42) ∧ decodeWord 0b0100001101000010 = .instr (.sneByte 3 0x42) ∧
    decodeWord 0b0110101000101011 = .instr (.ldByte 0xA 0x2B) ∧ decodeWord 0b0111001000000001 = .instr (.addByte 2 1) ∧
    decodeWord 0b1100001100001111 = .instr (.rnd 3 0x0F) := by decide

/-- Format XY: ffff xxxx yyyy ssss, families 5 and 9, and the copy and bitwise rows of family 8. -/
theorem test_decode_formatXY_copy :
    decodeWord 0b0101000100100000 = .instr (.seReg 1 2) ∧ decodeWord 0b1001000100100000 = .instr (.sneReg 1 2) ∧
    decodeWord 0b1000000000010000 = .instr (.ldReg 0 1) ∧ decodeWord 0b1000000000010001 = .instr (.orReg 0 1) ∧
    decodeWord 0b1000000000010010 = .instr (.andReg 0 1) ∧ decodeWord 0b1000000000010011 = .instr (.xorReg 0 1) := by
  decide

/-- Format XY, the arithmetic rows of family 8 (E11). -/
theorem test_decode_formatXY_arithmetic :
    decodeWord 0b1000111100010100 = .instr (.addReg 0xF 1) ∧ decodeWord 0b1000000000010101 = .instr (.subReg 0 1) ∧
    decodeWord 0b1000101010110110 = .instr (.shr 0xA 0xB) ∧ decodeWord 0b1000000000010111 = .instr (.subn 0 1) ∧
    decodeWord 0b1000010000001110 = .instr (.shl 4 0) := by decide

/-- Format XYN: 1101 xxxx yyyy nnnn (E13). -/
theorem test_decode_formatXYN :
    decodeWord 0b1101000100100011 = .instr (.drw 1 2 3) ∧ decodeWord 0b1101000000000000 = .instr (.drw 0 0 0) := by
  decide

/-- Format X: ffff xxxx ssss ssss, family E and the timer and key rows of family F. -/
theorem test_decode_formatX_timer_key :
    decodeWord 0b1110010110011110 = .instr (.skp 5) ∧ decodeWord 0b1110010110100001 = .instr (.sknp 5) ∧
    decodeWord 0b1111001100000111 = .instr (.ldVxDT 3) ∧ decodeWord 0b1111010100001010 = .instr (.ldVxK 5) ∧
    decodeWord 0b1111000000010101 = .instr (.ldDTVx 0) ∧ decodeWord 0b1111000100011000 = .instr (.ldSTVx 1) := by
  decide

/-- Format X, the index and memory rows of family F (E12). -/
theorem test_decode_formatX_index :
    decodeWord 0b1111001000011110 = .instr (.addI 2) ∧ decodeWord 0b1111010000101001 = .instr (.ldF 4) ∧
    decodeWord 0b1111010100110011 = .instr (.ldB 5) ∧ decodeWord 0b1111001001010101 = .instr (.storeRegs 2) ∧
    decodeWord 0b1111101001100101 = .instr (.loadRegs 0xA) := by decide

/-- E3 to E6 and E8 to E10: Unknown words of families 0, 5, 9, E and F. -/
theorem test_decode_unknown :
    decodeWord 0x00E1 = .unknown 0x00E1 ∧ decodeWord 0x0123 = .unknown 0x0123 ∧ decodeWord 0x0000 = .unknown 0x0000 ∧
    decodeWord 0x5121 = .unknown 0x5121 ∧ decodeWord 0x9011 = .unknown 0x9011 ∧ decodeWord 0xE09F = .unknown 0xE09F ∧
    decodeWord 0xE0A0 = .unknown 0xE0A0 ∧ decodeWord 0xF000 = .unknown 0xF000 ∧ decodeWord 0xF0FF = .unknown 0xF0FF ∧
    decodeWord 0xF01F = .unknown 0xF01F ∧ decodeWord 0xF066 = .unknown 0xF066 := by decide

/-- E7: Unknown words of family 8. -/
theorem test_decode_unknown_family8 :
    decodeWord 0x8008 = .unknown 0x8008 ∧ decodeWord 0x8009 = .unknown 0x8009 ∧ decodeWord 0x800A = .unknown 0x800A ∧
    decodeWord 0x800B = .unknown 0x800B ∧ decodeWord 0x800C = .unknown 0x800C ∧ decodeWord 0x800D = .unknown 0x800D ∧
    decodeWord 0x800F = .unknown 0x800F := by decide

/-- R80: the decoder takes two bytes, the first the more significant, and leaves the rest; fewer are no word. -/
theorem test_decode_bytes :
    decodeBytes [0x12, 0x34, 0x56] = .ok (.instr (.jp 0x234), [0x56]) ∧ decodeBytes [0x12] = .error .truncated := by
  decide

/-- R82: the words of three instructions, and their bytes in address order (R54). -/
theorem test_encode :
    encode (.drw 1 2 3) = 0xD123 ∧ encode (.jp 0xFFF) = 0x1FFF ∧ encode (.loadRegs 0xF) = 0xFF65 ∧
    encodeBytes (.ldI 0x234) = [0xA2, 0x34] := by decide

/-! ## Flow (41_flow.md) -/

/-- J1. -/
theorem test_ret : after { State.reset with sp := 1, stack := State.reset.stack.set 1 0x202, pc := 0x20C } 0x00EE
    (fun t => (t.pc, t.sp, t.stack[1])) = some (0x202, 0, 0x202) := by decide

/-- J2. -/
theorem test_ret_underflow : after State.reset 0x00EE (fun t => (t.run, t.pc, t.sp, lastReport t)) =
    some (.halted .stackUnderflow 0x200 (some 0x00EE), 0x200, 0,
      some ⟨.fatal .stackUnderflow, 0x200, some 0x00EE, none⟩) := by decide

/-- J3, J4. -/
theorem test_jp : after State.reset 0x1234 (·.pc) = some 0x234 ∧ after State.reset 0x1201 (·.pc) = some 0x201 := by
  decide

/-- J7, J9. -/
theorem test_call :
    after { State.reset with sp := 14, pc := 0x2F0 } 0x2400 (fun t => (t.sp, t.stack[15], t.pc)) =
      some (15, 0x2F2, 0x400) ∧
    after { State.reset with pc := 0xFFE } 0x2300 (fun t => (t.sp, t.stack[1], t.pc)) = some (1, 0x1000, 0x300) := by
  decide

/-- J8. -/
theorem test_call_overflow : after { State.reset with sp := 15, pc := 0x2F0 } 0x2400 (fun t => (t.run, t.sp, t.pc)) =
    some (.halted .stackOverflow 0x2F0 (some 0x2400), 15, 0x2F0) := by decide

/-- J11, J12. -/
theorem test_jpV0 :
    after (regs [(0, 0xFF)]) 0xBF01 (·.pc) = some 0x1000 ∧
    after (regs [(0, 0x02), (0xA, 0x50)]) 0xBA00 (·.pc) = some 0xA02 := by decide

/-! ## Skips (42_skip.md) -/

/-- K-S1, K-S2, and K-S9 at the end of memory. -/
theorem test_seByte :
    after (regs [(3, 0x07)]) 0x3307 (·.pc) = some 0x204 ∧ after (regs [(3, 0x08)]) 0x3307 (·.pc) = some 0x202 ∧
    after { State.reset with pc := 0xFFC } 0x3000 (·.pc) = some 0x1000 := by decide

/-- K-S3, K-S4. -/
theorem test_sneByte :
    after (regs [(3, 0x08)]) 0x4307 (·.pc) = some 0x204 ∧ after (regs [(3, 0x07)]) 0x4307 (·.pc) = some 0x202 := by
  decide

/-- K-S5, K-S6, and unequal registers. -/
theorem test_seReg :
    after (regs [(1, 9), (2, 9)]) 0x5120 (·.pc) = some 0x204 ∧ after State.reset 0x5110 (·.pc) = some 0x204 ∧
    after (regs [(1, 9), (2, 0xA)]) 0x5120 (·.pc) = some 0x202 := by decide

/-- K-S7, K-S8. -/
theorem test_sneReg :
    after (regs [(1, 9), (2, 0xA)]) 0x9120 (·.pc) = some 0x204 ∧ after State.reset 0x9110 (·.pc) = some 0x202 := by
  decide

/-- K-S11 and K-S14: key A pressed. -/
theorem test_key_tests_pressed :
    after ((regs [(5, 0xA)]).setKey 0xA true) 0xE59E (fun t => (t.pc, t.keyDown 0xA)) = some (0x204, true) ∧
    after ((regs [(5, 0xA)]).setKey 0xA true) 0xE5A1 (·.pc) = some 0x202 := by decide

/-- K-S12 and K-S13: key A not pressed. -/
theorem test_key_tests_not_pressed :
    after (regs [(5, 0xA)]) 0xE59E (·.pc) = some 0x202 ∧ after (regs [(5, 0xA)]) 0xE5A1 (·.pc) = some 0x204 := by
  decide

/-- K-S15, K-S16 and K-S17: no key 0x10. -/
theorem test_key_index_policies :
    after ((regs [(5, 0x10)]).setKey 0 true) 0xE59E (·.pc) = some 0x202 ∧
    after ((regs [(5, 0x10)]).setKey 0 true) 0xE5A1 (·.pc) = some 0x204 ∧
    after (withCfg ((regs [(5, 0x10)]).setKey 0 true) fun c => { c with keyIndex := .lowNibble }) 0xE59E (·.pc) =
      some 0x204 := by decide

/-- K-S18. -/
theorem test_key_index_fault :
    after (withCfg (regs [(5, 0x10)]) fun c => { c with keyIndex := .fault }) 0xE59E
      (fun t => (t.run, t.pc, lastReport t)) =
    some (.halted .addressOutOfRange 0x200 (some 0xE59E), 0x200,
      some ⟨.fatal .addressOutOfRange, 0x200, some 0xE59E, some 0x10⟩) := by decide

/-! ## Registers and arithmetic (43_alu.md) -/

/-- S1 at x = F, A1. -/
theorem test_ldByte :
    after State.reset 0x6FAB (·.getV VF) = some 0xAB ∧
    after State.reset 0x6A2B (fun t => (t.getV 0xA, t.pc)) = some (0x2B, 0x202) := by decide

/-- A2, A3. -/
theorem test_addByte :
    after (regs [(2, 0xFF)]) 0x7201 (fun t => (t.getV 2, t.getV VF)) = some (0, 0) ∧
    after (regs [(VF, 0xFF)]) 0x7F01 (·.getV VF) = some 0 := by decide

/-- A4. -/
theorem test_ldReg : after (regs [(1, 0x33)]) 0x8010 (·.getV 0) = some 0x33 := by decide

/-- A5. -/
theorem test_orReg :
    after (regs [(0, 0x0C), (1, 0x0A), (VF, 1)]) 0x8011 (fun t => (t.getV 0, t.getV VF)) = some (0x0E, 1) := by decide

/-- A6. -/
theorem test_andReg : after (regs [(0, 0x0C), (1, 0x0A)]) 0x8012 (·.getV 0) = some 0x08 := by decide

/-- A7, A8. -/
theorem test_xorReg :
    after (regs [(0, 0x0C), (1, 0x0A)]) 0x8013 (·.getV 0) = some 0x06 ∧
    after (regs [(0, 0x5A)]) 0x8003 (·.getV 0) = some 0 := by decide

/-- S2, A9, A10. -/
theorem test_addReg :
    after (regs [(0, 0xFF), (1, 1)]) 0x8014 (fun t => (t.getV 0, t.getV VF)) = some (0, 1) ∧
    after (regs [(0, 0x80), (1, 0x80)]) 0x8014 (fun t => (t.getV 0, t.getV VF)) = some (0, 1) ∧
    after (regs [(0, 0x7F), (1, 0x80)]) 0x8014 (fun t => (t.getV 0, t.getV VF)) = some (0xFF, 0) := by decide

/-- A11, A12, A13. -/
theorem test_addReg_flag_last :
    after (regs [(VF, 0xFF), (1, 1)]) 0x8F14 (·.getV VF) = some 1 ∧
    after (regs [(VF, 1), (1, 1)]) 0x8F14 (·.getV VF) = some 0 ∧
    after (regs [(0, 3), (VF, 2)]) 0x80F4 (fun t => (t.getV 0, t.getV VF)) = some (5, 0) := by decide

/-- S4, S5, A14. -/
theorem test_subReg :
    after (regs [(0, 5), (1, 3)]) 0x8015 (fun t => (t.getV 0, t.getV VF)) = some (2, 1) ∧
    after (regs [(0, 3), (1, 5)]) 0x8015 (fun t => (t.getV 0, t.getV VF)) = some (0xFE, 0) ∧
    after (regs [(0, 0x42)]) 0x8005 (fun t => (t.getV 0, t.getV VF)) = some (0, 1) := by decide

/-- A15. -/
theorem test_subReg_flag_last : after (regs [(VF, 5), (1, 3)]) 0x8F15 (·.getV VF) = some 1 := by decide

/-- A19, A20. -/
theorem test_shr :
    after (regs [(0, 5), (1, 0xFF)]) 0x8016 (fun t => (t.getV 0, t.getV VF)) = some (2, 1) ∧
    after (withCfg (regs [(0, 5), (1, 0xFF)]) fun c => { c with shiftSource := .vy }) 0x8016
      (fun t => (t.getV 0, t.getV VF)) = some (0x7F, 1) := by decide

/-- A23, A24. -/
theorem test_shr_flag_last :
    after (regs [(VF, 3)]) 0x8F06 (·.getV VF) = some 1 ∧ after (regs [(VF, 2)]) 0x8F06 (·.getV VF) = some 0 := by decide

/-- A17, A18. -/
theorem test_subn :
    after (regs [(0, 3), (1, 5)]) 0x8017 (fun t => (t.getV 0, t.getV VF)) = some (2, 1) ∧
    after (regs [(0, 5), (1, 3)]) 0x8017 (fun t => (t.getV 0, t.getV VF)) = some (0xFE, 0) := by decide

/-- A25, A26, A27. -/
theorem test_shl :
    after (regs [(0, 0x81)]) 0x800E (fun t => (t.getV 0, t.getV VF)) = some (2, 1) ∧
    after (regs [(0, 0x40)]) 0x800E (fun t => (t.getV 0, t.getV VF)) = some (0x80, 0) ∧
    after (withCfg (regs [(1, 0x81)]) fun c => { c with shiftSource := .vy }) 0x801E
      (fun t => (t.getV 0, t.getV VF)) = some (2, 1) := by decide

/-- A28, A30: the byte on the rnd port, oldest first. -/
theorem test_rnd :
    after { State.reset with rndIn := [0xA7, 0x5A] } 0xC30F (fun t => (t.getV 3, t.rndIn)) = some (7, [0x5A]) ∧
    after { State.reset with rndIn := [0x5A] } 0xC3FF (·.getV 3) = some 0x5A := by decide

/-! ## Display (44_display.md) -/

/-- D1. -/
theorem test_cls :
    after { regs [(VF, 1)] with disp := Vector.replicate 32 0xFFFFFFFFFFFFFFFF } 0x00E0
      (fun t => (t.disp, t.getV VF, t.pc)) = some (Vector.replicate 32 0, 1, 0x202) := by decide

/-- D2, D4, D10: wrap, bit order, the old VF as the column. -/
theorem test_drw_places_pixels :
    after { withBytes (regs [(1, 62), (2, 31)]) 0x300 [0x81] with i := 0x300 } 0xD121
      (fun t => (t.disp.pixel 31 62, t.disp.pixel 31 5, t.getV VF)) = some (true, true, 0) ∧
    after { withBytes (regs [(0, 69), (1, 33)]) 0x300 [0x80] with i := 0x300 } 0xD011
      (fun t => (t.disp.pixel 1 5, t.getV VF)) = some (true, 0) ∧
    after { withBytes (regs [(VF, 0xA)]) 0x300 [0x80] with i := 0x300 } 0xDF11
      (fun t => (t.disp.pixel 0 10, t.getV VF)) = some (true, 0) := by decide

/-- D5, D6, D8: collision, none on a clear bit, and the read fault. -/
theorem test_drw_collision_and_fault :
    after { withBytes State.reset 0x300 [0xC0] with i := 0x300, disp := State.reset.disp.flip 0 0 } 0xD011
      (fun t => (t.disp.pixel 0 0, t.disp.pixel 0 1, t.getV VF)) = some (false, true, 1) ∧
    after { withBytes State.reset 0x300 [0xC0] with i := 0x300, disp := State.reset.disp.flip 0 2 } 0xD011
      (fun t => (t.disp.pixel 0 0, t.disp.pixel 0 1, t.disp.pixel 0 2, t.getV VF)) = some (true, true, true, 0) ∧
    after { regs [(VF, 1)] with i := 0xFFF } 0xD012 (fun t => (t.getV VF, lastReport t)) =
      some (1, some ⟨.fatal .addressOutOfRange, 0x200, some 0xD012, some 0x1000⟩) := by decide

/-! ## Timers and keys (45_timer_key.md, 60_exceptions.md) -/

/-- K1. -/
theorem test_ldVxDT : after { State.reset with dt := 0x3C } 0xF307 (·.getV 3) = some 0x3C := by decide

/-- K2. -/
theorem test_ldDTVx : after (regs [(0, 5)]) 0xF015 (fun t => (t.dt, t.st)) = some (5, 0) := by decide

/-- K5, K6. -/
theorem test_ldSTVx :
    after (regs [(1, 0x1E)]) 0xF118 (fun t => (t.st, t.dt, t.toneOut)) = some (0x1E, 0, true) ∧
    after { State.reset with st := 0x10 } 0xF118 (fun t => (t.st, t.toneOut)) = some (0, false) := by decide

/-- K7, K10 (first half). -/
theorem test_ldVxK :
    after { State.reset with pc := 0x220 } 0xF50A (fun t => (t.run, t.pc, t.getV 5)) = some (.waiting 5, 0x220, 0) ∧
    after (State.reset.setKey 3 true) 0xF00A (fun t => (t.run, t.keyDown 3)) = some (.waiting 0, true) := by decide

/-- K8, K9, K11. -/
theorem test_key_events_while_waiting :
    afterInputs { State.reset with run := .waiting 5, pc := 0x220 } [.keyEvent 0xB true]
      (fun t => (t.getV 5, t.keyDown 0xB, t.pc, t.run)) = some (0xB, false, 0x222, .running) ∧
    afterInputs { State.reset.setKey 3 true with run := .waiting 5 } [.keyEvent 3 false]
      (fun t => (t.keyDown 3, t.run, t.pc)) = some (false, .waiting 5, 0x200) ∧
    afterInputs { State.reset with run := .waiting 0xF } [.keyEvent 0xC true] (·.getV VF) = some 0xC := by decide

/-- K4, K12. -/
theorem test_ticks :
    afterInputs { State.reset with dt := 1, st := 2 } [.timerClock] (fun t => (t.dt, t.st, t.toneOut)) =
      some (0, 1, true) ∧
    afterInputs { State.reset with run := .waiting 2, dt := 2 } [.timerClock] (fun t => (t.dt, t.run)) =
      some (1, .waiting 2) := by decide

/-- K13, K14. -/
theorem test_halted_ignores_host :
    afterInputs { State.reset with run := .halted .stackUnderflow 0x200 (some 0x00EE), dt := 5 }
      [.timerClock, .keyEvent 1 true] (fun t => (t.dt, t.keyDown 1)) = some (5, false) ∧
    afterInputs State.reset [.keyEvent 7 true] (fun t => (t.keyDown 7, t.getV 7)) = some (true, 0) := by decide

/-- S9 under the timed refinement (R212): 1/12 s at CPU_HZ = 500, cut in two, is 5 ticks; and at the rate 45/2 Hz, three
CPU periods are 2/15 s, which is 8 ticks. -/
theorem test_elapsed_time :
    afterInputs { atRate 500 1 with dt := 6 } [.elapse 499, .elapse 2001] (fun t => (t.dt, t.elapsed)) = some (1, 0) ∧
    afterInputs { atRate 45 2 with dt := 9 } [.cpuPeriod, .cpuPeriod, .cpuPeriod] (fun t => (t.dt, t.elapsed)) =
      some (1, 0) := by decide

/-! ## Index and memory (46_index_mem.md) -/

/-- M1. -/
theorem test_ldI : after State.reset 0xA300 (·.i) = some 0x300 := by decide

/-- M5, M3, M4. -/
theorem test_addI :
    after { regs [(0, 0xFF)] with i := 0xFF0 } 0xF01E (·.i) = some 0x0EF ∧
    after { regs [(0, 1)] with i := 0xFFF } 0xF01E (fun t => (t.i, t.getV VF)) = some (0, 0) ∧
    after { withCfg (regs [(0, 1)]) (fun c => { c with addiVf := .overflow }) with i := 0xFFF } 0xF01E
      (fun t => (t.i, t.getV VF)) = some (0, 1) := by decide

/-- M6, M7, M8. -/
theorem test_ldF :
    after (regs [(4, 0x0A)]) 0xF429 (·.i) = some 0x032 ∧ after (regs [(4, 0x1A)]) 0xF429 (·.i) = some 0x032 ∧
    after (withCfg (regs [(4, 0x1A)]) fun c => { c with fontDigit := .full }) 0xF429 (·.i) = some 0x082 := by decide

/-- M9, M14. -/
theorem test_ldB :
    after { regs [(5, 156)] with i := 0x300 } 0xF533 (fun t => t.bytesAt 0x300 3) = some [1, 5, 6] ∧
    after { regs [(5, 7)] with i := 0x050 } 0xF533 (fun t => t.bytesAt 0x050 3) = some [0, 0, 7] := by decide

/-- M12, M13. -/
theorem test_ldB_faults :
    after { regs [(5, 7)] with i := 0xFFE } 0xF533 (fun t => (lastReport t, t.byteAt 0xFFE)) =
      some (some ⟨.fatal .addressOutOfRange, 0x200, some 0xF533, some 0x1000⟩, 0) ∧
    after { regs [(5, 7)] with i := 0x04F } 0xF533 (fun t => (lastReport t, t.byteAt 0x04F)) =
      some (some ⟨.fatal .addressOutOfRange, 0x200, some 0xF533, some 0x04F⟩, 0x80) := by decide

/-- M15, M18. -/
theorem test_storeRegs :
    after { regs [(0, 0x11), (1, 0x22), (2, 0x33)] with i := 0x300 } 0xF255 (fun t => (t.bytesAt 0x300 4, t.i)) =
      some ([0x11, 0x22, 0x33, 0], 0x300) ∧
    after { regs [(0, 1), (3, 4)] with i := 0xFFC } 0xF355 (fun t => (t.bytesAt 0xFFC 4, t.run)) =
      some ([1, 0, 0, 4], .running) := by decide

/-- M17, M22. -/
theorem test_storeRegs_policies :
    after { regs [(0, 1)] with i := 0xFFE } 0xF355 (fun t => (lastReport t, t.byteAt 0xFFE)) =
      some (some ⟨.fatal .addressOutOfRange, 0x200, some 0xF355, some 0x1001⟩, 0) ∧
    after (withCfg State.reset fun c => { c with fontWrite := .allow }) 0xF055 (fun t => (t.byteAt 0, t.run)) =
      some (0, .running) := by decide

/-- M19, M20. -/
theorem test_loadRegs :
    after { withBytes State.reset 0x300 [1, 5, 6] with i := 0x300 } 0xF265
      (fun t => (t.getV 0, t.getV 1, t.getV 2, t.i)) = some (1, 5, 6, 0x300) ∧
    after State.reset 0xF465 (fun t => (t.getV 0, t.getV 1, t.getV 3, t.getV 4, t.getV 5)) =
      some (0xF0, 0x90, 0x90, 0xF0, 0) := by decide

/-- M21. -/
theorem test_loadRegs_fault :
    after { State.reset with i := 0xFF1 } 0xFF65 (fun t => (lastReport t, t.getV 0)) =
      some (some ⟨.fatal .addressOutOfRange, 0x200, some 0xFF65, some 0x1000⟩, 0) := by decide

/-! ## The cycle and the boot (40_cycle.md, 70_reset_and_hazards.md) -/

/-- F2, F3. -/
theorem test_fetch_fault :
    afterInputs { State.reset with pc := 0xFFF } [.cpuClock] (fun t => (t.run, lastReport t)) =
      some (.halted .addressOutOfRange 0xFFF none, some ⟨.fatal .addressOutOfRange, 0xFFF, none, some 0xFFF⟩) ∧
    afterInputs { State.reset with pc := 0x1000 } [.cpuClock] (·.run) =
      some (.halted .addressOutOfRange 0x1000 none) := by decide

/-- F4: an odd PC. -/
theorem test_fetch_odd_pc :
    afterInputs { withBytes State.reset 0x201 [0x60, 0x2A] with pc := 0x201 } [.cpuClock]
      (fun t => (t.getV 0, t.pc)) = some (0x2A, 0x203) := by decide

/-- F5, F6. -/
theorem test_unknown_word :
    afterInputs { withBytes State.reset 0x300 [0x5A, 0xB1] with pc := 0x300 } [.cpuClock]
      (fun t => (t.pc, t.run, t.reports)) =
      some (0x302, .running, [⟨.unknownOpcode, 0x300, some 0x5AB1, none⟩]) ∧
    afterInputs { State.reset with pc := 0x210 } [.cpuClock] (fun t => (t.pc, lastReport t)) =
      some (0x212, some ⟨.unknownOpcode, 0x210, some 0, none⟩) := by decide

/-- R242: a ROM is loaded and its first word, JP 234, runs; a second ROM is refused (log entry 5). -/
theorem test_boot :
    afterInputs State.reset [.init, .load [0x12, 0x34], .cpuClock] (fun t => (t.pc, t.loadStatus)) = some (0x234, .ok) ∧
    afterInputs State.reset [.load [0x12], .load [0x34]] (·.loadStatus) = none := by decide

/-- L4: an empty ROM. -/
theorem test_empty_rom :
    afterInputs State.reset [.load []] (fun t => (t.mem, t.loadStatus)) = some ([], .ok) := by decide

/-- R246, L1: Init leaves Halted and restores memory. -/
theorem test_init_after_halt :
    afterInputs { withBytes (regs [(3, 9)]) 0x300 [7] with run := .halted .stackOverflow 0x200 none, pc := 0x444 } [.init]
      (fun t => (t.run, t.pc, t.getV 3, t.mem)) = some (.running, 0x200, 0, []) := by decide

/-! ## Witnesses: for every obligation with hypotheses, states and operands that meet them, at the boundary values -/

/-- Reset with SP set. -/
def atSp (n : Fin 16) : State := { State.reset with sp := n }

/-- Reset with I set. -/
def atI (a : Addr) : State := { State.reset with i := a }

/-- A halted core. -/
def halted : State := { State.reset with run := .halted .stackOverflow 0x200 (some 0x2200), started := true }

/-- A core that waits for a key in Fx0A. -/
def waiting : State := { State.reset with run := .waiting 5, started := true }

/-- A core at the last legal fetch address, with a jump there. -/
def lastFetch : State := { State.reset.putBytes 0xFFE [0x12, 0x00] with pc := 0xFFE }

theorem not_halted_of_running_or_waiting (s : State) (h : s.run = .running ∨ ∃ x, s.run = .waiting x) :
    ∀ e pc w, s.run ≠ .halted e pc w := by
  intro e pc w hw
  rcases h with h | ⟨x, h⟩ <;> simp [h] at hw

theorem witness_InitRestoresResetValues :
    ∃ (s : State) (rest : List Input), s.inputs = .init :: rest ∧ s.isHalted = true :=
  ⟨{ halted with inputs := [.init] }, [], rfl, rfl⟩

/-- Any length, so 0 and 3583 too. -/
theorem witness_LoadRomWritesImage (n : Nat) (h : n ≤ 3583) :
    ∃ (s : State) (rom : List Byte) (rest : List Input), MemoryCanonical s ∧ s.inputs = .load rom :: rest ∧
      s.started = false ∧ s.loadStatus = .none ∧ rom.length ≤ 3583 ∧ rom.length = n :=
  ⟨{ State.reset with inputs := [.load (List.replicate n 0xAA)] }, List.replicate n 0xAA, [],
    show MemoryCanonical State.reset by decide, rfl, rfl, rfl, by simpa using h, by simp⟩

theorem witness_LoadRomTooLargeStartsNothing :
    ∃ (s : State) (rom : List Byte) (rest : List Input), s.inputs = .load rom :: rest ∧ s.started = false ∧
      s.loadStatus = .none ∧ 3583 < rom.length ∧ rom.length = 3584 ∧ s.run = .running :=
  ⟨{ State.reset with inputs := [.load (List.replicate 3584 0xAA)] }, List.replicate 3584 0xAA, [], rfl, rfl, rfl,
    by rw [List.length_replicate]; decide, List.length_replicate, rfl⟩

theorem witness_DecodeEncodeAgree : decodeWord 0xFF65 = .instr (.loadRegs 0xF) := by decide

/-- The last legal fetch, with and without the cpuClock input. -/
theorem witness_StepRunsDecodedInstruction :
    ∃ (s : State) (i : Instr), CanCycle s ∧ s.pc.toNat = 0xFFE ∧
      decodeWord (wordOfBytes (s.byteAt s.pc.toNat) (s.byteAt (s.pc.toNat + 1))) = .instr i ∧ s.inputs = [] ∧
      CanCycle { s with inputs := [.cpuClock] } :=
  ⟨lastFetch, .jp 0x200, ⟨rfl, by decide⟩, rfl, by decide, rfl, ⟨rfl, by decide⟩⟩

theorem witness_PlacedWordRunsNext :
    MemoryCanonical State.reset ∧ decodeTableWord 16 0x1FFF = some (.jp 0xFFF) ∧
      MemoryCanonical { State.reset with pc := 0x1000 } := by decide

theorem witness_UnknownIsReportedNoOp :
    ∃ (s : State) (w : Word) (rest : List Input), CanCycle s ∧ s.pc.toNat = 0xFFE ∧ s.inputs = .cpuClock :: rest ∧
      decodeWord (wordOfBytes (s.byteAt s.pc.toNat) (s.byteAt (s.pc.toNat + 1))) = .unknown w :=
  ⟨{ State.reset with pc := 0xFFE, inputs := [.cpuClock] }, 0, [], ⟨rfl, by decide⟩, rfl, rfl, by decide⟩

theorem witness_FetchBeyondMemoryFaults :
    ∃ (s : State) (rest : List Input), CanCycle s ∧ 0xFFE < s.pc.toNat ∧ s.pc.toNat = 0xFFF ∧
      s.inputs = .cpuClock :: rest :=
  ⟨{ State.reset with pc := 0xFFF, inputs := [.cpuClock] }, [], ⟨rfl, by decide⟩, by decide, rfl, rfl⟩

theorem witness_NoCycleUnlessRunning :
    (∃ (s : State) (rest : List Input), s.run ≠ .running ∧ s.inputs = .cpuClock :: rest ∧ s.waitingOut = true) ∧
    (∃ (s : State) (rest : List Input), s.run ≠ .running ∧ s.inputs = .cpuClock :: rest ∧ s.isHalted = true) :=
  ⟨⟨{ waiting with inputs := [.cpuClock] }, [], by decide, rfl, rfl⟩,
    ⟨{ halted with inputs := [.cpuClock] }, [], by decide, rfl, rfl⟩⟩

/-- Every clause of StepStopsAsListed has a state. -/
theorem witness_StepStopsAsListed :
    (∃ t, step State.reset = .next t) ∧
    step waiting = .fault .stuckWaiting ∧ step halted = .fault .stuckHalted ∧
    step { State.reset with loadStatus := .romTooLarge } = .fault .loadFailed ∧
    step { State.reset with inputs := [.shutdown] } = .fault .shutdown ∧
    step { State.reset with started := true, inputs := [.load []] } = .refused .loadOutOfOrder ∧
    step { State.reset with loadStatus := .ok, inputs := [.load []] } = .refused .loadOutOfOrder :=
  ⟨⟨_, rfl⟩, rfl, rfl, rfl, rfl, rfl, rfl⟩

/-- Both clauses: SP = 0, and SP = 1 and 15. -/
theorem witness_ReturnPopsAddress :
    State.reset.sp = 0 ∧ (atSp 1).sp ≠ 0 ∧ (atSp 15).sp ≠ 0 := by decide

/-- Both clauses: SP = 15, and SP = 0 and 14. -/
theorem witness_CallPushesReturnAddress :
    (atSp 15).sp = 15 ∧ State.reset.sp ≠ 15 ∧ (atSp 14).sp ≠ 15 := by decide

theorem witness_ReturnUndoesCall : (atSp 14).sp ≠ 15 := by decide

/-- V0 = 0 and V1 = 9: two forms that skip and two that do not. -/
theorem witness_SkipsOnComparison :
    (True ↔ (regs [(1, 9)]).getV 0 = 0x00) ∧ (False ↔ (regs [(1, 9)]).getV 0 ≠ 0x00) ∧
    (False ↔ (regs [(1, 9)]).getV 0 = (regs [(1, 9)]).getV 1) ∧
    (True ↔ (regs [(1, 9)]).getV 0 ≠ (regs [(1, 9)]).getV 1) := by decide

/-- Every clause, at the key numbers 0xF and 0x10. -/
theorem witness_SkipsOnKey :
    (∃ k : Key, ((regs [(5, 0xF)]).getV 5).toNat = k.val ∧ false = (regs [(5, 0xF)]).keyDown k) ∧
    (0xF < ((regs [(5, 0x10)]).getV 5).toNat ∧ (regs [(5, 0x10)]).cfg.keyIndex = .notPressed) ∧
    (0xF < ((regs [(5, 0x10)]).getV 5).toNat ∧
      (withCfg (regs [(5, 0x10)]) fun c => { c with keyIndex := .lowNibble }).cfg.keyIndex = .lowNibble ∧
      ∃ k : Key, ((regs [(5, 0x10)]).getV 5).toNat % 16 = k.val ∧ false = (regs [(5, 0x10)]).keyDown k) ∧
    (0xF < ((regs [(5, 0x10)]).getV 5).toNat ∧
      (withCfg (regs [(5, 0x10)]) fun c => { c with keyIndex := .fault }).cfg.keyIndex = .fault) := by decide

/-- Each of the four forms with the value it writes: V0 = 0C, V1 = 0A (A4 to A7). -/
theorem witness_CopyAndBitwise :
    (0x0A : Byte) = (regs [(0, 0x0C), (1, 0x0A)]).getV 1 ∧
    (0x0E : Byte) = (regs [(0, 0x0C), (1, 0x0A)]).getV 0 ||| (regs [(0, 0x0C), (1, 0x0A)]).getV 1 ∧
    (0x08 : Byte) = (regs [(0, 0x0C), (1, 0x0A)]).getV 0 &&& (regs [(0, 0x0C), (1, 0x0A)]).getV 1 ∧
    (0x06 : Byte) = (regs [(0, 0x0C), (1, 0x0A)]).getV 0 ^^^ (regs [(0, 0x0C), (1, 0x0A)]).getV 1 := by decide

/-- Both forms with their operands: V0 = 5, V1 = 3, and x = F beside x ≠ F. -/
theorem witness_SubtractSetsNoBorrowLast :
    (5 : Byte) = (regs [(0, 5), (1, 3)]).getV 0 ∧ (3 : Byte) = (regs [(0, 5), (1, 3)]).getV 1 ∧ (0 : Reg) ≠ VF := by
  decide

/-- The shifted operand under both values of SHIFT_SOURCE. -/
theorem witness_ShiftsByOne :
    (5 : Byte) = (if (regs [(0, 5)]).cfg.shiftSource = .vx then (regs [(0, 5)]).getV 0 else (regs [(0, 5)]).getV 1) ∧
    (withCfg (regs [(1, 0xFF)]) fun c => { c with shiftSource := .vy }).cfg.shiftSource ≠ .vx := by decide

/-- The port holds a byte, and it holds none. -/
theorem witness_RandomByteUnderMask :
    ({ State.reset with rndIn := [0xA7] } : State).rndIn = 0xA7 :: [] ∧ State.reset.rndIn = [] := by decide

/-- n = 0 with I beyond any sprite, and a one-byte sprite at 0xFFF (D9). -/
theorem witness_DrawXorsSprite :
    ((0 : Fin 16).val = 0 ∨ (atI 0xFFF).i.toNat + (0 : Fin 16).val ≤ 0x1000) ∧
    (atI 0xFFF).i.toNat + (1 : Fin 16).val ≤ 0x1000 ∧
    (atI 0xFF1).i.toNat + (15 : Fin 16).val ≤ 0x1000 := by decide

/-- The two premises about VF: a covered pixel that is set, and none (D5, and reset with D011 on glyph 0). -/
theorem witness_DrawXorsSprite_flag :
    (∃ py px, SpriteCovers { State.reset with disp := State.reset.disp.flip 0 0 } 0 0 1 py px ∧
      ({ State.reset with disp := State.reset.disp.flip 0 0 } : State).disp.pixel py px = true) ∧
    (∀ py px, SpriteCovers State.reset 0 0 1 py px → State.reset.disp.pixel py px = false) :=
  ⟨⟨0, 0, ⟨0, by decide, 0, by decide, by decide, by decide, by decide⟩, by decide⟩,
    fun py px _ => by simp [State.reset, Display.pixel]⟩

theorem witness_DrawBeyondMemoryFaults :
    1 ≤ (2 : Fin 16).val ∧ 0xFFF < (atI 0xFFF).i.toNat + (2 : Fin 16).val - 1 := by decide

theorem witness_DrawTwiceRestoresDisplay :
    (0 : Reg) ≠ VF ∧ (14 : Reg) ≠ VF ∧ (atI 0xFFF).i.toNat + (1 : Fin 16).val ≤ 0x1000 ∧
    ∃ py px, SpriteCovers State.reset 0 0 1 py px ∧ State.reset.disp.pixel py px = false :=
  ⟨by decide, by decide, by decide, 0, 0, ⟨0, by decide, 0, by decide, by decide, by decide, by decide⟩, by decide⟩

theorem witness_KeyPressCompletesWait :
    ∃ (s : State) (x : Reg) (k : Key) (rest : List Input), s.run = .waiting x ∧ s.inputs = .keyEvent k true :: rest :=
  ⟨{ waiting with inputs := [.keyEvent 0xF true] }, 5, 0xF, [], rfl, rfl⟩

/-- Running with a press, and waiting with a release. -/
theorem witness_KeyEventSetsKey :
    (∃ (s : State) (rest : List Input), s.inputs = .keyEvent 7 true :: rest ∧ s.run = .running) ∧
    (∃ (s : State) (rest : List Input), s.inputs = .keyEvent 3 false :: rest ∧ ∃ x, s.run = .waiting x) :=
  ⟨⟨{ State.reset with inputs := [.keyEvent 7 true] }, [], rfl, rfl⟩,
    ⟨{ waiting with inputs := [.keyEvent 3 false] }, [], rfl, 5, rfl⟩⟩

/-- A running core with a timer at 0, a waiting one, and a halted one. -/
theorem witness_TickCountsTimersDown :
    (∃ (s : State) (rest : List Input), s.inputs = .timerClock :: rest ∧ (∀ e pc w, s.run ≠ .halted e pc w) ∧
      s.dt = 0) ∧
    (∃ (s : State) (rest : List Input), s.inputs = .timerClock :: rest ∧ (∀ e pc w, s.run ≠ .halted e pc w) ∧
      s.dt = 2) ∧
    (∃ (s : State) (rest : List Input), s.inputs = .timerClock :: rest ∧ ∃ e pc w, s.run = .halted e pc w) :=
  ⟨⟨{ State.reset with inputs := [.timerClock] }, [], rfl, not_halted_of_running_or_waiting _ (.inl rfl), rfl⟩,
    ⟨{ waiting with dt := 2, inputs := [.timerClock] }, [], rfl, not_halted_of_running_or_waiting _ (.inr ⟨5, rfl⟩), rfl⟩,
    ⟨{ halted with inputs := [.timerClock] }, [], rfl, _, _, _, rfl⟩⟩

/-- Six ticks from DT = 5 (K3). -/
theorem witness_TicksStopAtZero :
    ∃ (n : Nat) (s : State) (rest : List Input), n = 6 ∧ s.inputs = List.replicate n .timerClock ++ rest ∧
      (∀ e pc w, s.run ≠ .halted e pc w) ∧ s.dt = 5 :=
  ⟨6, { State.reset with dt := 5, inputs := List.replicate 6 .timerClock }, [], rfl, rfl,
    not_halted_of_running_or_waiting _ (.inl rfl), rfl⟩

/-- 1/12 s at CPU_HZ = 500, in two pieces (S9), and three CPU periods at the rate 45/2 Hz, which is no whole number. -/
theorem witness_TicksAreFloorOfTime :
    (∃ (s : State) (rest : List Input) (ds : List Nat), s.elapsed = 0 ∧ (∀ e pc w, s.run ≠ .halted e pc w) ∧
      s.inputs = ds.map .elapse ++ rest ∧ ds.sum / s.unitsPerTick = 5) ∧
    (∃ (s : State) (rest : List Input) (n : Nat), s.elapsed = 0 ∧ (∀ e pc w, s.run ≠ .halted e pc w) ∧
      s.inputs = List.replicate n .cpuPeriod ++ rest ∧ n = 3) :=
  ⟨⟨{ atRate 500 1 with inputs := [.elapse 499, .elapse 2001] }, [], [499, 2001], rfl,
      not_halted_of_running_or_waiting _ (.inl rfl), rfl, by decide⟩,
    ⟨{ atRate 45 2 with inputs := List.replicate 3 .cpuPeriod }, [], 3, rfl,
      not_halted_of_running_or_waiting _ (.inl rfl), rfl, rfl⟩⟩

/-- The clauses of WritesIndex under each policy. -/
theorem witness_WritesIndex :
    State.reset.cfg.addiVf = .none ∧ (withCfg State.reset fun c => { c with addiVf := .overflow }).cfg.addiVf = .overflow ∧
    State.reset.cfg.fontDigit = .lowNibble ∧
    (withCfg State.reset fun c => { c with fontDigit := .full }).cfg.fontDigit = .full := by decide

/-- The first and the last address a store may start at: 0x050 and 0xFFD; 0x04F too where the font may be written. -/
theorem witness_StoresDecimalDigits :
    (MemoryCanonical (atI 0xFFD) ∧ StoreAllowed (atI 0xFFD) 0xFFD 3) ∧
    (MemoryCanonical (atI 0x050) ∧ StoreAllowed (atI 0x050) 0x050 3) ∧
    StoreAllowed (withCfg State.reset fun c => { c with fontWrite := .allow }) 0x04F 3 :=
  ⟨⟨by decide, by decide, by decide⟩, ⟨by decide, by decide, by decide⟩, by decide, by decide⟩

theorem witness_StoresRegisters :
    (MemoryCanonical (atI 0xFF0) ∧ StoreAllowed (atI 0xFF0) 0xFF0 ((15 : Reg).val + 1)) ∧
    (MemoryCanonical (atI 0x050) ∧ StoreAllowed (atI 0x050) 0x050 ((0 : Reg).val + 1)) :=
  ⟨⟨by decide, by decide, by decide⟩, by decide, by decide, by decide⟩

/-- Both forms and both clauses at their edges: I = 0xFFE and 0x04F for LD B, 0xFFF and 0x000 for LD [I], V1. -/
theorem witness_ForbiddenStoresFault :
    0xFFF < (atI 0xFFE).i.toNat + 3 - 1 ∧ State.reset.cfg.fontWrite = .fault ∧
    (atI 0x04F).i.toNat ≤ 0x04F ∧
    0xFFF < (atI 0xFFF).i.toNat + ((1 : Reg).val + 1) - 1 ∧ State.reset.i.toNat ≤ 0x04F ∧
    (0xF533 : Word) = BitVec.ofNat 16 (0xF033 + 256 * (5 : Reg).val) ∧
    (0xF155 : Word) = BitVec.ofNat 16 (0xF055 + 256 * (1 : Reg).val) := by decide

/-- Both clauses at their edges. -/
theorem witness_LoadsRegisters :
    (atI 0xFF0).i.toNat + (15 : Reg).val ≤ 0xFFF ∧
    0xFFF < (atI 0xFF1).i.toNat + (15 : Reg).val := by decide

/-- A store just behind the running instruction. -/
theorem witness_StoredCodeIsFetched :
    MemoryCanonical (atI 0x202) ∧ 1 ≤ (1 : Reg).val ∧
    StoreAllowed (atI 0x202) 0x202 ((1 : Reg).val + 1) ∧
    (atI 0x202).i.toNat = (atI 0x202).pc.toNat + 2 :=
  ⟨by decide, by decide, ⟨by decide, by decide⟩, by decide⟩

/-- RET with an empty stack faults. -/
theorem witness_FaultsArePrecise :
    ∃ (i : Instr) (s t : State) (e : FatalFault) (pc : Word) (w : Option Word),
      (∀ e pc w, s.run ≠ .halted e pc w) ∧ exec i s = .next t ∧ t.run = .halted e pc w :=
  ⟨.ret, State.reset, State.reset.takeFault .stackUnderflow (some 0x00EE) none, .stackUnderflow, 0x200, some 0x00EE,
    not_halted_of_running_or_waiting _ (.inl rfl), rfl, rfl⟩

theorem witness_RegistersWrittenAsListed : ∃ t, exec (.addReg 0 1) State.reset = .next t := ⟨_, rfl⟩

/-- Clearing a display with one pixel set changes it. -/
theorem witness_OnlyDisplayInstructionsDraw :
    ∃ (i : Instr) (s t : State), exec i s = .next t ∧ t.disp ≠ s.disp :=
  ⟨.cls, { State.reset with disp := State.reset.disp.flip 0 0 }, _, rfl, by decide⟩

/-- Storing 1 to a zero byte changes it. -/
theorem witness_OnlyStoresWriteMemory :
    ∃ (i : Instr) (s t : State) (a : Nat), MemoryCanonical s ∧ exec i s = .next t ∧ t.byteAt a ≠ s.byteAt a :=
  ⟨.storeRegs 0, { regs [(0, 1)] with i := 0x300 }, _, 0x300, by decide, rfl, by decide⟩

/-- An instruction for each clause of ControlStateWrittenAsListed. -/
theorem witness_ControlStateWrittenAsListed :
    (∃ t, exec (.ldI 0x300) State.reset = .next t ∧ t.i ≠ State.reset.i) ∧
    (∃ t, exec (.call 0x206) State.reset = .next t ∧ t.sp ≠ State.reset.sp ∧ t.stack ≠ State.reset.stack) ∧
    (∃ t, exec (.ldDTVx 0) (regs [(0, 5)]) = .next t ∧ t.dt ≠ (regs [(0, 5)]).dt) ∧
    (∃ t, exec (.ldSTVx 0) (regs [(0, 5)]) = .next t ∧ t.st ≠ (regs [(0, 5)]).st) ∧
    (∃ t, exec (.ldVxK 5) State.reset = .next t ∧ State.reset.run = .running ∧ t.run = .waiting 5) :=
  ⟨⟨_, rfl, by decide⟩, ⟨_, rfl, by decide, by decide⟩, ⟨_, rfl, by decide⟩, ⟨_, rfl, by decide⟩, ⟨_, rfl, rfl, rfl⟩⟩

/-- A store on its way, that the invariants hold of: the premises of StepKeepsMemoryCanonical, StepKeepsFontIntact,
StepKeepsStartedUnlessRunning and StepKeepsParametersAndReports. -/
theorem witness_StepKeeps :
    ∃ s t : State, MemoryCanonical s ∧ FontIntact s ∧ StartedUnlessRunning s ∧ step s = .next t ∧ t.mem ≠ s.mem :=
  ⟨({ regs [(0, 1)] with i := 0x300 }).withFetchWord 16 0xF055, _, by decide, ⟨rfl, by decide⟩,
    fun h => absurd rfl h, rfl, by decide⟩

/-- PC at its largest, 0x10FE, and a waiting core at 0xFFE: both step on. -/
theorem witness_StepKeepsPcBounded :
    (∃ s t : State, PcBounded s ∧ step s = .next t ∧ s.pc = 0x10FE) ∧
    (∃ s t : State, PcBounded s ∧ step s = .next t ∧ s.run = .waiting 5 ∧ s.pc = 0xFFE ∧ t.pc = 0x1000) :=
  ⟨⟨{ State.reset with pc := 0x10FE }, _, ⟨by decide, by decide, nofun⟩, rfl, rfl⟩,
    ⟨{ waiting with pc := 0xFFE, inputs := [.keyEvent 1 true] }, _, ⟨by decide, by decide, fun _ _ => by decide⟩, rfl,
      rfl, rfl, rfl⟩⟩

/-- A core that is halted with its report, and one that halts in this step. -/
theorem witness_StepKeepsHaltReported :
    (∃ s t : State, HaltReported s ∧ step s = .next t ∧ s.isHalted = true) ∧
    (∃ s t : State, HaltReported s ∧ step s = .next t ∧ t.isHalted = true) :=
  ⟨⟨{ (State.reset.takeFault .stackUnderflow (some 0x00EE) none) with inputs := [.timerClock] }, _,
      fun _ _ _ h => by cases h; exact ⟨rfl, none, rfl⟩, rfl, rfl⟩,
    ⟨{ State.reset with pc := 0xFFF }, _, nofun, rfl, rfl⟩⟩

/-- A waiting core ticks on, is initialised, and gets its key. -/
theorem witness_WaitEndsOnlyByKeyPress :
    (∃ s t : State, s.run = .waiting 5 ∧ StartedUnlessRunning s ∧ step s = .next t ∧ s.inputs = [.timerClock]) ∧
    (∃ s t : State, s.run = .waiting 5 ∧ StartedUnlessRunning s ∧ step s = .next t ∧ s.inputs = [.init]) ∧
    (∃ s t : State, s.run = .waiting 5 ∧ StartedUnlessRunning s ∧ step s = .next t ∧ s.inputs = [.keyEvent 0 true]) :=
  ⟨⟨{ waiting with inputs := [.timerClock] }, _, rfl, fun _ => rfl, rfl, rfl⟩,
    ⟨{ waiting with inputs := [.init] }, _, rfl, fun _ => rfl, rfl, rfl⟩,
    ⟨{ waiting with inputs := [.keyEvent 0 true] }, _, rfl, fun _ => rfl, rfl, rfl⟩⟩

/-- A halted core is clocked, and is initialised. -/
theorem witness_HaltedIsFinal :
    (∃ s t : State, s.isHalted = true ∧ StartedUnlessRunning s ∧ step s = .next t ∧ s.inputs = [.cpuClock]) ∧
    (∃ s t : State, s.isHalted = true ∧ StartedUnlessRunning s ∧ step s = .next t ∧ s.inputs = [.init]) :=
  ⟨⟨{ halted with inputs := [.cpuClock] }, _, rfl, fun _ => rfl, rfl, rfl⟩, ⟨{ halted with inputs := [.init] }, _, rfl, fun _ => rfl, rfl, rfl⟩⟩

theorem witness_OutputsAndShutdown :
    ({ State.reset with inputs := [.frame] } : State).inputs = .frame :: [] ∧
    ({ State.reset with inputs := [.shutdown] } : State).inputs = .shutdown :: [] := ⟨rfl, rfl⟩

end Sys2Proof.Tests
end

section
/-! SUPPORT. The fields that no kind of step rewrites: the implementation parameters (00_scope.md R6) and the reports
already sent (60_exceptions.md R207). -/

namespace Sys2Proof.Machine

/-- No kind of step touches the parameters; Init, which rewrites the rest, copies them (log entry 2). -/
theorem Stepped.cfg_eq {s t : State} (h : Stepped s t) : t.cfg = s.cfg := by
  cases h with
  | completed _ _ _ _ _ done => exact done.cfg
  | fetchFault | instrFault | unknown | timers | init | loaded | tooLarge | key | keyWait | rnd => rfl

/-- A taken fault and an Unknown word send one report each; every other kind of step leaves the channel as it was. -/
theorem Stepped.reports_prefix {s t : State} (h : Stepped s t) : s.reports <+: t.reports := by
  cases h with
  | fetchFault | instrFault | unknown => exact List.prefix_append _ _
  | completed _ _ _ _ _ done => exact done.reports ▸ List.prefix_rfl
  | timers | init | loaded | tooLarge | key | keyWait | rnd => exact List.prefix_rfl

/-- Settles O57, by the kinds of step of `step_inversion`. -/
theorem stepKeepsParametersAndReports : Obligations.StepKeepsParametersAndReports := by
  intro s t h
  have hs : Stepped s t := step_inversion h
  obtain ⟨more, hmore⟩ := hs.reports_prefix
  exact ⟨hs.cfg_eq, more, hmore.symm⟩

end Sys2Proof.Machine
end

section
/-! SUPPORT. The state (10_state.md): what Init leaves (R38), what an instruction may write (R22, R27 to R34), and the
bound of PC and of the stacked return addresses along every step (R24, R26). -/

namespace Sys2Proof.Machine

/-! ## Reset -/

/-- Every byte reads as its reset content after Init (R38, R53). -/
theorem State.init_byteAt (s : State) (a : Nat) : s.init.byteAt a = resetByte s.cfg.fontTable a := rfl

/-- Init leaves the table of R38, from any state. -/
theorem State.init_atReset (s : State) : AtReset s.init := by
  have hv : ∀ r, s.init.getV r = 0 := fun r => by simp [State.getV, State.init, State.reset]
  have hstack : ∀ j : Fin 16, s.init.stack[j.val] = 0 := fun j => by simp [State.init, State.reset]
  have hfont : ∀ d : Fin 16, ∀ b : Fin 5,
      s.init.byteAt (5 * d.val + b.val) = (s.init.cfg.fontTable[d.val])[b.val] := fun d b => by
    rw [State.init_byteAt, resetByte_glyph]; rfl
  have hzero : ∀ a, 0x050 ≤ a → s.init.byteAt a = 0 := fun a ha => by rw [State.init_byteAt, resetByte_of_ge ha]
  have hdisp : ∀ py px, s.init.disp.pixel py px = false := fun py px => by
    simp [Display.pixel, State.init, State.reset]
  have hkeys : ∀ k, s.init.keyDown k = false := fun k => by simp [State.keyDown, State.init, State.reset]
  exact ⟨hv, rfl, rfl, rfl, hstack, rfl, rfl, hfont, hzero, hdisp, hkeys, rfl, rfl⟩

/-- Settles O1: the reset state is what Init makes of itself. -/
theorem resetStateAsSpecified : Obligations.ResetStateAsSpecified := State.init_atReset State.reset

/-- A core that does not wait is bounded by its PC and its stack alone. -/
theorem PcBounded.of_not_waiting {t : State} (hpc : t.pc.toNat ≤ 0x10FE)
    (hstack : ∀ j : Fin 16, (t.stack[j.val]).toNat ≤ 0x1000) (hrun : ∀ x, t.run ≠ .waiting x) : PcBounded t :=
  ⟨hpc, hstack, fun x hx => absurd hx (hrun x)⟩

/-- The values of R38 are within the bounds of R26. -/
theorem AtReset.pcBounded {t : State} (h : AtReset t) : PcBounded t := by
  obtain ⟨-, -, hpc, -, hstack, -, -, -, -, -, -, hrun, -⟩ := h
  exact .of_not_waiting (by rw [hpc]; decide) (fun j => by rw [hstack j]; decide) fun x => by rw [hrun]; nofun

/-- After Init under FONT_WRITE_POLICY = fault the font table is intact. -/
theorem AtReset.fontIntact {t : State} (h : AtReset t) (hw : t.cfg.fontWrite = .fault) : FontIntact t := by
  obtain ⟨-, -, -, -, -, -, -, hfont, -, -, -, -, -⟩ := h
  exact ⟨hw, hfont⟩

/-- Settles O51: bounds and font follow from R38's table, memory lists nothing, and the core runs. -/
theorem resetMeetsInvariants : Obligations.ResetMeetsInvariants := by
  have hreset : AtReset State.reset := resetStateAsSpecified
  have hmem : MemoryCanonical State.reset := ⟨.nil, nofun⟩
  have hhalt : HaltReported State.reset := nofun
  have hstart : StartedUnlessRunning State.reset := fun h => absurd rfl h
  exact ⟨hmem, hreset.pcBounded, hreset.fontIntact rfl, hhalt, hstart⟩

/-! ## What an instruction may write -/

/-- Settles O47: a fault writes no register, and a completed instruction those of its row. -/
theorem registersWrittenAsListed : Obligations.RegistersWrittenAsListed := by
  intro i s t h
  rcases exec_cases h with ⟨e, addr, rfl⟩ | done
  · exact fun r _ => State.takeFault_getV s e _ addr r
  · exact done.regs

/-- A running core that waits after a completed instruction was suspended by Fx0A, which did nothing else (R171). -/
theorem Completed.suspended {i : Instr} {s t : State} {x : Reg} (done : Completed i s t)
    (hs : s.run = .running) (ht : t.run = .waiting x) : i = .ldVxK x ∧ t = { s with run := .waiting x } := by
  rcases done.run with hsame | ⟨y, hi, rfl⟩
  · rw [hsame, hs] at ht
    cases ht
  · cases ht
    exact ⟨hi, rfl⟩

/-- Settles O50: a fault changes none of these parts, and a completed instruction only its own. -/
theorem controlStateWrittenAsListed : Obligations.ControlStateWrittenAsListed := by
  intro i s t h
  rcases exec_cases h with ⟨e, addr, rfl⟩ | done
  · exact ⟨absurd rfl, absurd rfl, absurd rfl, absurd rfl, absurd rfl, rfl, nofun⟩
  · exact ⟨done.index.resolve_left, done.sp.resolve_left,
      fun hne => (done.stack.resolve_left hne).imp fun _ => And.left,
      done.dt.resolve_left, done.st.resolve_left, done.keys, fun _ hs ht => (done.suspended hs ht).1⟩

/-! ## The bound of PC -/

/-- The next instruction's address, from an address a fetch is legal at (R122). -/
theorem add_two_le_of_fetchable {pc : Word} (h : pc.toNat ≤ 0xFFE) : (pc + 2).toNat ≤ 0x1000 := by bv_omega

/-- A skip's address, from an address a fetch is legal at (R130). -/
theorem add_four_le_of_fetchable {pc : Word} (h : pc.toNat ≤ 0xFFE) : (pc + 4).toNat ≤ 0x1002 := by bv_omega

/-- A taken fault keeps the bounds: PC and the stack stay, and the core halts (R203). -/
theorem PcBounded.takeFault {s : State} (h : PcBounded s) (e : FatalFault) (w : Option Word) (a : Option Nat) :
    PcBounded (s.takeFault e w a) := by
  obtain ⟨hpc, hstack, -⟩ := h
  exact .of_not_waiting hpc hstack nofun

/-- A completed instruction leaves PC at most 0x10FE, whichever of R24's ways it took. -/
theorem Completed.pc_le {i : Instr} {s t : State} (done : Completed i s t)
    (hp : s.pc.toNat ≤ 0xFFE) (hstack : ∀ j : Fin 16, (s.stack[j.val]).toNat ≤ 0x1000) : t.pc.toNat ≤ 0x10FE := by
  have h2 := add_two_le_of_fetchable hp
  have h4 := add_four_le_of_fetchable hp
  have htop : s.stackTop.toNat ≤ 0x1000 := hstack s.sp
  rcases done.pc with e | e | e | e | hle
  on_goal 5 => exact hle
  all_goals
    rw [e]
    omega

/-- A completed instruction leaves every stacked return address at most 0x1000: CALL stacks its PC + 2 (R122). -/
theorem Completed.stack_le {i : Instr} {s t : State} (done : Completed i s t)
    (hp : s.pc.toNat ≤ 0xFFE) (hstack : ∀ j : Fin 16, (s.stack[j.val]).toNat ≤ 0x1000) (j : Fin 16) :
    (t.stack[j.val]).toNat ≤ 0x1000 := by
  rcases done.stack with e | ⟨nnn, -, e⟩
  · rw [e]; exact hstack j
  · simp only [e, Vector.getElem_set]
    split_ifs
    · exact add_two_le_of_fetchable hp
    · exact hstack j

/-- A completed instruction of a running core keeps the bounds; one that suspends stays at its own, fetched address. -/
theorem PcBounded.of_completed {i : Instr} {s t : State} (h : PcBounded s) (hrun : s.run = .running)
    (hp : s.pc.toNat ≤ 0xFFE) (done : Completed i s t) : PcBounded t := by
  obtain ⟨-, hstack, -⟩ := h
  refine ⟨done.pc_le hp hstack, done.stack_le hp hstack, fun x hx => ?_⟩
  obtain ⟨-, rfl⟩ := done.suspended hrun hx
  exact hp

/-- The key press that ends a wait keeps the bounds: the waiting core's PC was fetched (R172). -/
theorem PcBounded.completeKeyWait {s : State} (h : PcBounded s) {x : Reg} (hw : s.run = .waiting x) (k : Key) :
    PcBounded (s.completeKeyWait x k) := by
  obtain ⟨-, hstack, hwait⟩ := h
  have hpc : (s.completeKeyWait x k).pc.toNat ≤ 0x1000 := add_two_le_of_fetchable (hwait x hw)
  exact .of_not_waiting (by omega) hstack nofun

/-- Every kind of step keeps the bounds. -/
theorem PcBounded.of_stepped {s t : State} (h : PcBounded s) (hs : Stepped s t) : PcBounded t := by
  cases hs with
  | fetchFault rest => exact PcBounded.takeFault (s := { s with inputs := rest, started := true }) h _ _ _
  | instrFault rest => exact PcBounded.takeFault (s := { s with inputs := rest, started := true }) h _ _ _
  | completed rest i t hc hp done =>
    exact PcBounded.of_completed (s := { s with inputs := rest, started := true }) h hc.1 hp done
  | unknown rest w hc hp =>
    obtain ⟨-, hstack, -⟩ := h
    obtain ⟨hrun, -⟩ := hc
    have hpc := add_two_le_of_fetchable hp
    exact .of_not_waiting (Nat.le_trans hpc (by decide)) hstack fun x hx => nomatch hrun.symm.trans hx
  | init => exact (State.init_atReset _).pcBounded
  | keyWait rest k x hi hw => exact PcBounded.completeKeyWait (s := { s with inputs := rest }) h hw k
  | timers | loaded | tooLarge | key | rnd => exact h

/-- Settles O53, by the kinds of step of `step_inversion`. -/
theorem stepKeepsPcBounded : Obligations.StepKeepsPcBounded :=
  fun _ _ h hstep => h.of_stepped (step_inversion hstep)

end Sys2Proof.Machine
end

section
/-! SUPPORT. Memory (20_memory.md): where a store lands and what it leaves (R54 to R57, R59), how a step may change
memory (R50), and the font table under FONT_WRITE_POLICY = fault (R57). -/

namespace Sys2Proof.Machine

/-! ## Reads after a store -/

/-- A byte is read from the memory and the parameters alone. -/
theorem State.byteAt_congr {s t : State} (hmem : t.mem = s.mem) (hcfg : t.cfg = s.cfg) (a : Nat) :
    t.byteAt a = s.byteAt a := by
  simp only [State.byteAt, hmem, hcfg]

/-- Outside the stored block every byte reads as before. -/
theorem State.putBytes_sameOutside {s : State} (hm : MemoryCanonical s) {a : Nat} {bs : List Byte}
    (ha : a + bs.length ≤ 4096) : BytesSameOutside a bs.length s (s.putBytes a bs) := by
  intro c hc
  rw [State.byteAt_putBytes hm ha]
  split_ifs with hac
  · exact List.getD_eq_default _ _ (by omega)
  · rfl

/-- Inside the stored block byte j reads as the j-th byte stored. -/
theorem State.byteAt_putBytes_add {s : State} (hm : MemoryCanonical s) {a : Nat} {bs : List Byte}
    (ha : a + bs.length ≤ 4096) {j : Nat} (hj : j < bs.length) : (s.putBytes a bs).byteAt (a + j) = bs[j] := by
  simp [State.byteAt_putBytes hm ha, hj]

/-- After an allowed store of V0 to Vx, byte r of the block reads as Vr (R184). -/
theorem State.byteAt_putBytes_regBlock {s : State} (hm : MemoryCanonical s) {a : Nat} {x : Reg}
    (ha : StoreAllowed s a (x.val + 1)) {r : Reg} (hr : r ≤ x) :
    (s.putBytes a (s.regBlock x)).byteAt (a + r.val) = s.getV r := by
  have hlen := s.regBlock_length x
  have hj : r.val < (s.regBlock x).length := hlen ▸ Nat.lt_succ_of_le hr
  rw [State.byteAt_putBytes_add hm (by rw [hlen]; exact ha.1) hj]
  exact s.regBlock_getElem x r.val hj r.isLt

/-! ## Allowed and forbidden stores -/

/-- An allowed LD [I], Vx stores its block and advances (R184). -/
theorem exec_storeRegs_of_allowed {s : State} {x : Reg} (h : StoreAllowed s s.i.toNat (x.val + 1)) :
    exec (.storeRegs x) s = .next (s.putBytes s.i.toNat (s.regBlock x)).advance := by
  have hw := State.memWrite_ok (bs := s.regBlock x) (by rwa [s.regBlock_length x]) (s.regBlock_ne_nil x)
  simp only [exec, execStoreRegs, hw, State.finishStore, State.done]

/-- MemWrite past 0xFFF faults with the address of the last byte (R56). -/
theorem State.memWrite_beyond {s : State} {a : Nat} {bs : List Byte} (h : 0xFFF < a + bs.length - 1) :
    s.memWrite a bs = .error (a + bs.length - 1) := if_pos h

/-- MemWrite within memory, into the font table under FONT_WRITE_POLICY = fault, faults with the first address (R57). -/
theorem State.memWrite_font {s : State} {a : Nat} {bs : List Byte} (hr : a + bs.length ≤ 0x1000)
    (hf : s.cfg.fontWrite = .fault) (ha : a ≤ 0x04F) : s.memWrite a bs = .error a :=
  (if_neg (by omega)).trans (if_pos ⟨hf, ha⟩)

/-- What `takeFault` leaves is a taken fault: Run and the report channel alone change (R203). -/
theorem State.takeFault_faulted (s : State) (e : FatalFault) (w : Option Word) (addr : Option Nat) :
    Faulted s (s.takeFault e w addr) e w addr := by
  refine ⟨rfl, rfl, fun p hp => ?_⟩
  cases p with
  | run | reports => simp at hp
  | v | mem => exact fun _ => rfl
  | rnd => exact ⟨rfl, rfl⟩
  | i | pc | sp | stack | dt | st | disp | keys | elapsed | cfg | loadStatus | started | inputs => rfl

/-- A store whose MemWrite faults takes that fault, under its own word (R183, R184). -/
theorem State.finishStore_error_faulted (s : State) (i : Instr) (addr : Nat) :
    ∃ t, s.finishStore i (.error addr) = .next t ∧
      Faulted s t .addressOutOfRange (some (encode i)) (some addr) :=
  ⟨_, rfl, s.takeFault_faulted _ _ _⟩

/-- Settles O42: both stores are a MemWrite of at most 16 bytes, so one that starts in the font table is in range. -/
theorem forbiddenStoresFault : Obligations.ForbiddenStoresFault := by
  intro s x i n w hi
  obtain ⟨bs, hexec, rfl, hn, rfl⟩ : ∃ bs : List Byte,
      exec i s = s.finishStore i (s.memWrite s.i.toNat bs) ∧ bs.length = n ∧ n ≤ 16 ∧ encode i = w := by
    rcases hi with ⟨rfl, rfl, rfl⟩ | ⟨rfl, rfl, rfl⟩
    · exact ⟨decimalDigits (s.getV x), rfl, rfl, by omega, rfl⟩
    · exact ⟨s.regBlock x, rfl, s.regBlock_length x, x.isLt, rfl⟩
  rw [hexec]
  constructor
  · intro hbeyond
    rw [State.memWrite_beyond hbeyond]
    exact s.finishStore_error_faulted i _
  · intro hf ha
    rw [State.memWrite_font (by omega) hf ha]
    exact s.finishStore_error_faulted i _

/-- Settles O44: the next PC is I, where the block starts with V0 and V1. -/
theorem storedCodeIsFetched : Obligations.StoredCodeIsFetched := by
  intro s x hm hx ha hi
  have hpc : (s.pc + 2).toNat = s.i.toNat := by bv_omega
  have h0 := State.byteAt_putBytes_regBlock hm ha (r := 0) (Fin.zero_le x)
  have h1 := State.byteAt_putBytes_regBlock hm ha (r := 1) hx
  refine ⟨_, exec_storeRegs_of_allowed ha, hpc, ?_⟩
  simp only [State.fetchWord, State.advance_pc, State.putBytes_pc, State.advance_byteAt, hpc]
  exact congrArg₂ wordOfBytes h0 h1

/-! ## Who writes memory -/

/-- Settles O49: a fault writes no byte, and a completed store only its own block. -/
theorem onlyStoresWriteMemory : Obligations.OnlyStoresWriteMemory := by
  intro i s t a hm h hne
  rcases exec_cases h with ⟨e, addr, rfl⟩ | done
  · exact absurd (State.takeFault_byteAt s e _ addr a) hne
  rcases done.mem with hmem | ⟨bs, hi, ha, hmem⟩
  · exact absurd (State.byteAt_congr hmem done.cfg a) hne
  have hread : t.byteAt a = (s.putBytes s.i.toNat bs).byteAt a :=
    State.byteAt_congr (s := s.putBytes s.i.toNat bs) hmem done.cfg a
  obtain ⟨hlo, hhi⟩ : s.i.toNat ≤ a ∧ a < s.i.toNat + bs.length := by
    by_contra hout
    exact hne (hread.trans (State.putBytes_sameOutside hm ha.1 a (by omega)))
  rcases hi with ⟨x, rfl, hl⟩ | ⟨x, rfl, hl⟩
  · exact .inl ⟨x, rfl, hlo, by omega⟩
  · exact .inr ⟨x, rfl, hlo, by omega⟩

/-! ## Memory along a step -/

/-- A ROM image that fits is an allowed store: it lies above the font table and ends in memory (R243). -/
theorem StoreAllowed.of_rom (s : State) {rom : List Byte} (h : rom.length ≤ 0xDFF) :
    StoreAllowed s 0x200 rom.length :=
  ⟨by omega, fun _ => by decide⟩

/-- The ways a step changes memory: not at all, by Init, or by one allowed store (Fx33, Fx55 or the ROM load). -/
theorem Stepped.mem_cases {s t : State} (h : Stepped s t) :
    t.mem = s.mem ∨ t.mem = [] ∨
      ∃ a bs, StoreAllowed s a bs.length ∧ t.mem = (s.putBytes a bs).mem := by
  cases h with
  | completed _ _ _ _ _ done =>
    rcases done.mem with hmem | ⟨bs, -, ha, hmem⟩
    · exact .inl hmem
    · exact .inr (.inr ⟨_, bs, ha, hmem⟩)
  | init => exact .inr (.inl rfl)
  | loaded _ rom _ hl => exact .inr (.inr ⟨0x200, rom, .of_rom s hl, rfl⟩)
  | fetchFault | instrFault | unknown | timers | tooLarge | key | keyWait | rnd => exact .inl rfl

/-- The canonical form is of the memory and the font alone. -/
theorem MemoryCanonical.congr {s t : State} (hm : MemoryCanonical s) (hmem : t.mem = s.mem) (hcfg : t.cfg = s.cfg) :
    MemoryCanonical t := by
  rw [MemoryCanonical, hmem, hcfg]
  exact hm

/-- Settles O52: memory that lists nothing is canonical, and an allowed store ends inside memory. -/
theorem stepKeepsMemoryCanonical : Obligations.StepKeepsMemoryCanonical := by
  intro s t hm hstep
  have hs := step_inversion hstep
  rcases hs.mem_cases with hmem | hmem | ⟨a, bs, ha, hmem⟩
  · exact hm.congr hmem hs.cfg_eq
  · rw [MemoryCanonical, hmem]
    exact ⟨.nil, nofun⟩
  · exact (State.putBytes_canonical hm ha.1).congr hmem hs.cfg_eq

/-- Settles O54: Init lists no font byte, and an allowed store starts above the font table. -/
theorem stepKeepsFontIntact : Obligations.StepKeepsFontIntact := by
  intro s t hm hfont hstep
  obtain ⟨hf, hglyph⟩ := hfont
  have hs := step_inversion hstep
  refine ⟨hs.cfg_eq ▸ hf, fun d b => ?_⟩
  rcases hs.mem_cases with hmem | hmem | ⟨a, bs, ha, hmem⟩
  · rw [State.byteAt_congr hmem hs.cfg_eq, hglyph d b, hs.cfg_eq]
  · rw [State.byteAt, hmem]
    exact resetByte_glyph t.cfg.fontTable d b
  · have habove := ha.2 hf
    rw [State.byteAt_congr hmem hs.cfg_eq, State.putBytes_sameOutside hm ha.1 _ (by omega), hglyph d b, hs.cfg_eq]

end Sys2Proof.Machine
end

section
/-! SUPPORT. The decoder against the encoder and the opcode map (30_encoding.md R81 to R87): the fields of an encoded
word, what the decoder may answer for a word, and the rows that match it. -/

namespace Sys2Proof

open Laws

/-! ## Fields of an encoded word

A format puts an operand where the row's code is zero, so each field of the word reads back as the operand or the
sub-opcode that stands there. -/

section
variable {code : Nat} (hcode : code < 65536)
include hcode

@[simp] theorem fieldFamily_formatA (h0 : code % 4096 = 0) (nnn : Addr) :
    fieldFamily (formatA code nnn) = code / 4096 := by
  have := nnn.isLt
  rw [fieldFamily, formatA_toNat (by omega)]
  omega

@[simp] theorem fieldNnn_formatA (h0 : code % 4096 = 0) (nnn : Addr) : fieldNnn (formatA code nnn) = nnn := by
  have := nnn.isLt
  apply fieldNnn_eq
  rw [formatA_toNat (by omega)]
  omega

@[simp] theorem fieldFamily_formatXK (h0 : code % 4096 = 0) (x : Reg) (kk : Byte) :
    fieldFamily (formatXK code x kk) = code / 4096 := by
  have := kk.isLt
  rw [fieldFamily, formatXK_toNat (by omega)]
  omega

@[simp] theorem fieldX_formatXK (h0 : code % 4096 = 0) (x : Reg) (kk : Byte) :
    fieldX (formatXK code x kk) = x := by
  have := kk.isLt
  apply fieldX_eq
  rw [formatXK_toNat (by omega)]
  omega

@[simp] theorem fieldKk_formatXK (h0 : code % 4096 = 0) (x : Reg) (kk : Byte) :
    fieldKk (formatXK code x kk) = kk := by
  have := kk.isLt
  apply fieldKk_eq
  rw [formatXK_toNat (by omega)]
  omega

@[simp] theorem fieldFamily_formatXY (h0 : code % 4096 < 16) (x y : Reg) :
    fieldFamily (formatXY code x y) = code / 4096 := by
  rw [fieldFamily, formatXY_toNat (by omega)]
  omega

@[simp] theorem fieldX_formatXY (h0 : code % 4096 < 16) (x y : Reg) : fieldX (formatXY code x y) = x := by
  apply fieldX_eq
  rw [formatXY_toNat (by omega)]
  omega

@[simp] theorem fieldY_formatXY (h0 : code % 4096 < 16) (x y : Reg) : fieldY (formatXY code x y) = y := by
  apply fieldY_eq
  rw [formatXY_toNat (by omega)]
  omega

@[simp] theorem fieldN_formatXY (h0 : code % 4096 < 16) (x y : Reg) :
    (fieldN (formatXY code x y)).val = code % 16 := by
  change (formatXY code x y).toNat % 16 = _
  rw [formatXY_toNat (by omega)]
  omega

@[simp] theorem fieldFamily_formatXYN (h0 : code % 4096 = 0) (x y : Reg) (n : Fin 16) :
    fieldFamily (formatXYN code x y n) = code / 4096 := by
  rw [fieldFamily, formatXYN_toNat (by omega)]
  omega

@[simp] theorem fieldX_formatXYN (h0 : code % 4096 = 0) (x y : Reg) (n : Fin 16) :
    fieldX (formatXYN code x y n) = x := by
  apply fieldX_eq
  rw [formatXYN_toNat (by omega)]
  omega

@[simp] theorem fieldY_formatXYN (h0 : code % 4096 = 0) (x y : Reg) (n : Fin 16) :
    fieldY (formatXYN code x y n) = y := by
  apply fieldY_eq
  rw [formatXYN_toNat (by omega)]
  omega

@[simp] theorem fieldN_formatXYN (h0 : code % 4096 = 0) (x y : Reg) (n : Fin 16) :
    fieldN (formatXYN code x y n) = n := by
  apply fieldN_eq
  rw [formatXYN_toNat (by omega)]
  omega

@[simp] theorem fieldFamily_formatX (h0 : code % 4096 < 256) (x : Reg) :
    fieldFamily (formatX code x) = code / 4096 := by
  rw [fieldFamily, formatX_toNat (by omega)]
  omega

@[simp] theorem fieldX_formatX (h0 : code % 4096 < 256) (x : Reg) : fieldX (formatX code x) = x := by
  apply fieldX_eq
  rw [formatX_toNat (by omega)]
  omega

@[simp] theorem fieldKk_formatX (h0 : code % 4096 < 256) (x : Reg) :
    (fieldKk (formatX code x)).toNat = code % 256 := by
  rw [fieldKk, BitVec.toNat_setWidth, formatX_toNat (by omega)]
  omega

end

/-- R82, R84: decoding the word of an instruction gives the instruction back. -/
theorem decodeWord_encode (i : Instr) : decodeWord (encode i) = .instr i := by
  cases i with
  | cls | ret => rfl
  | jp | call | ldI | jpV0 => simp [encode, decodeWord]
  | seByte | sneByte | ldByte | addByte | rnd => simp [encode, decodeWord]
  | seReg => simp [encode, decodeWord, decodeFamily5]
  | ldReg | orReg | andReg | xorReg | addReg | subReg | shr | subn | shl => simp [encode, decodeWord, decodeFamily8]
  | sneReg => simp [encode, decodeWord, decodeFamily9]
  | drw => simp [encode, decodeWord]
  | skp | sknp => simp [encode, decodeWord, decodeFamilyE]
  | ldVxDT | ldVxK | ldDTVx | ldSTVx | addI | ldF | ldB | storeRegs | loadRegs =>
    simp [encode, decodeWord, decodeFamilyF]

/-! ## A word from its fields -/

section
variable {code : Nat} {w : Word} (hf : fieldFamily w = code / 4096)
include hf

theorem formatA_fields (h0 : code % 4096 = 0) : formatA code (fieldNnn w) = w := by
  have := w.isLt
  simp only [fieldFamily] at hf
  apply BitVec.eq_of_toNat_eq
  simp only [formatA, fieldNnn, BitVec.toNat_ofNat, BitVec.toNat_setWidth]
  omega

theorem formatXK_fields (h0 : code % 4096 = 0) : formatXK code (fieldX w) (fieldKk w) = w := by
  have := w.isLt
  simp only [fieldFamily] at hf
  apply BitVec.eq_of_toNat_eq
  simp only [formatXK, fieldX, fieldKk, Fin.val_ofNat, BitVec.toNat_ofNat, BitVec.toNat_setWidth]
  omega

theorem formatXY_fields (hn : (fieldN w).val = code % 16) (h0 : code % 4096 < 16) :
    formatXY code (fieldX w) (fieldY w) = w := by
  have := w.isLt
  simp only [fieldFamily] at hf
  simp only [fieldN, Fin.val_ofNat] at hn
  apply BitVec.eq_of_toNat_eq
  simp only [formatXY, fieldX, fieldY, Fin.val_ofNat, BitVec.toNat_ofNat]
  omega

theorem formatXYN_fields (h0 : code % 4096 = 0) : formatXYN code (fieldX w) (fieldY w) (fieldN w) = w := by
  have := w.isLt
  simp only [fieldFamily] at hf
  apply BitVec.eq_of_toNat_eq
  simp only [formatXYN, fieldX, fieldY, fieldN, Fin.val_ofNat, BitVec.toNat_ofNat]
  omega

theorem formatX_fields (hkk : (fieldKk w).toNat = code % 256) (h0 : code % 4096 < 256) :
    formatX code (fieldX w) = w := by
  have := w.isLt
  simp only [fieldFamily] at hf
  simp only [fieldKk, BitVec.toNat_setWidth] at hkk
  apply BitVec.eq_of_toNat_eq
  simp only [formatX, fieldX, Fin.val_ofNat, BitVec.toNat_ofNat]
  omega

end

/-! ## What the decoder may answer -/

/-- The six lists of R85, family by family. -/
def UnknownListed (w : Word) : Prop :=
  (w.toNat / 4096 = 0 ∧ w ≠ 0x00E0 ∧ w ≠ 0x00EE) ∨
  (w.toNat / 4096 = 5 ∧ w.toNat % 16 ≠ 0) ∨
  (w.toNat / 4096 = 8 ∧ w.toNat % 16 ∈ [0x8, 0x9, 0xA, 0xB, 0xC, 0xD, 0xF]) ∨
  (w.toNat / 4096 = 9 ∧ w.toNat % 16 ≠ 0) ∨
  (w.toNat / 4096 = 0xE ∧ w.toNat % 256 ∉ [0x9E, 0xA1]) ∨
  (w.toNat / 4096 = 0xF ∧ w.toNat % 256 ∉ [0x07, 0x0A, 0x15, 0x18, 0x1E, 0x29, 0x33, 0x55, 0x65])

/-- What the decoder may answer for a word: the instruction whose word it is, or Unknown of itself where R85 lists
it. -/
def AnswersFor (w : Word) : Decoded → Prop
  | .instr i => encode i = w
  | .unknown u => u = w ∧ UnknownListed w

theorem decodeFamily0_answersFor {w : Word} (hf : fieldFamily w = 0x0) : AnswersFor w (decodeFamily0 w) := by
  unfold decodeFamily0
  split
  case h_1 h => exact BitVec.eq_of_toNat_eq h.symm
  case h_2 h => exact BitVec.eq_of_toNat_eq h.symm
  case h_3 h1 h2 => exact ⟨rfl, .inl ⟨hf, mt (congrArg BitVec.toNat) h1, mt (congrArg BitVec.toNat) h2⟩⟩

theorem decodeFamily5_answersFor {w : Word} (hf : fieldFamily w = 0x5) : AnswersFor w (decodeFamily5 w) := by
  unfold decodeFamily5
  split
  case h_1 hn => exact formatXY_fields (code := 0x5000) hf hn (by decide)
  case h_2 hn => exact ⟨rfl, .inr (.inl ⟨hf, hn⟩)⟩

theorem decodeFamily8_answersFor {w : Word} (hf : fieldFamily w = 0x8) : AnswersFor w (decodeFamily8 w) := by
  unfold decodeFamily8
  split
  case h_10 =>
    have hlow : w.toNat % 16 ∈ [0x8, 0x9, 0xA, 0xB, 0xC, 0xD, 0xF] := by
      simp only [fieldN, Fin.val_ofNat, List.mem_cons, List.not_mem_nil, imp_false] at *
      omega
    exact ⟨rfl, .inr (.inr (.inl ⟨hf, hlow⟩))⟩
  all_goals exact formatXY_fields hf ‹_› (by decide)

theorem decodeFamily9_answersFor {w : Word} (hf : fieldFamily w = 0x9) : AnswersFor w (decodeFamily9 w) := by
  unfold decodeFamily9
  split
  case h_1 hn => exact formatXY_fields (code := 0x9000) hf hn (by decide)
  case h_2 hn => exact ⟨rfl, .inr (.inr (.inr (.inl ⟨hf, hn⟩)))⟩

theorem decodeFamilyE_answersFor {w : Word} (hf : fieldFamily w = 0xE) : AnswersFor w (decodeFamilyE w) := by
  unfold decodeFamilyE
  split
  case h_3 =>
    have hlow : w.toNat % 256 ∉ [0x9E, 0xA1] := by simp_all [fieldKk]
    exact ⟨rfl, .inr (.inr (.inr (.inr (.inl ⟨hf, hlow⟩))))⟩
  all_goals exact formatX_fields hf ‹_› (by decide)

theorem decodeFamilyF_answersFor {w : Word} (hf : fieldFamily w = 0xF) : AnswersFor w (decodeFamilyF w) := by
  unfold decodeFamilyF
  split
  case h_10 =>
    have hlow : w.toNat % 256 ∉ [0x07, 0x0A, 0x15, 0x18, 0x1E, 0x29, 0x33, 0x55, 0x65] := by simp_all [fieldKk]
    exact ⟨rfl, .inr (.inr (.inr (.inr (.inr ⟨hf, hlow⟩))))⟩
  all_goals exact formatX_fields hf ‹_› (by decide)

/-- Everything the decoder can answer, by the family of the word. -/
theorem decodeWord_answersFor (w : Word) : AnswersFor w (decodeWord w) := by
  unfold decodeWord
  split
  case h_1 hf => exact decodeFamily0_answersFor hf
  case h_6 hf => exact decodeFamily5_answersFor hf
  case h_9 hf => exact decodeFamily8_answersFor hf
  case h_10 hf => exact decodeFamily9_answersFor hf
  case h_15 hf => exact decodeFamilyE_answersFor hf
  case h_16 hf => exact decodeFamilyF_answersFor hf
  case h_2 hf | h_3 hf | h_11 hf | h_12 hf => exact formatA_fields hf (by decide)
  case h_4 hf | h_5 hf | h_7 hf | h_8 hf | h_13 hf => exact formatXK_fields hf (by decide)
  case h_14 hf => exact formatXYN_fields (code := 0xD000) hf (by decide)
  case h_17 =>
    have hfam : fieldFamily w < 16 := Nat.div_lt_of_lt_mul w.isLt
    simp only [imp_false] at *
    omega

/-- Every word decodes to the instruction whose word it is, or is listed by R85 and decodes to Unknown of itself. -/
theorem decodeWord_cases (w : Word) :
    (∃ i, decodeWord w = .instr i ∧ encode i = w) ∨ (decodeWord w = .unknown w ∧ UnknownListed w) := by
  have hans := decodeWord_answersFor w
  cases hd : decodeWord w with
  | instr i =>
    rw [hd] at hans
    exact .inl ⟨i, rfl, hans⟩
  | unknown u =>
    rw [hd] at hans
    obtain ⟨rfl, hlist⟩ := hans
    exact .inr ⟨rfl, hlist⟩

/-- A word that decodes to an instruction is that instruction's word. -/
theorem encode_of_decodeWord {w : Word} {i : Instr} (h : decodeWord w = .instr i) : encode i = w := by
  have hans := decodeWord_answersFor w
  rwa [h] at hans

/-- Settles O6: the fields of an encoded word are its operands, and a decoded word is put together from its fields. -/
theorem decodeEncodeAgree : Obligations.DecodeEncodeAgree :=
  ⟨decodeWord_encode, fun _ _ => encode_of_decodeWord⟩

/-! ## The rows that match a word -/

/-- A matched word agrees with the row's code in any bits that the row's mask fixes. -/
theorem OpRow.and_eq_of_covers {r : OpRow} {w sub : Word} (h : r.covers w = true) (hsub : r.mask &&& sub = sub) :
    w &&& sub = r.code &&& sub := by
  have hcode : w &&& r.mask = r.code := eq_of_beq h
  rw [← hcode, BitVec.and_assoc, hsub]

/-- Every row fixes the family (R84). -/
theorem family_eq_of_covers {r : OpRow} (hr : r ∈ opcodeRows) {w : Word} (h : r.covers w = true) :
    w.toNat / 4096 = r.code.toNat / 4096 := by
  have hmask : ∀ r ∈ opcodeRows, r.mask &&& 0xF000 = 0xF000 := by decide
  have hand := OpRow.and_eq_of_covers h (hmask r hr)
  have hw := w.isLt
  have hc := r.code.isLt
  rw [show (0xF000 : Word) = 0xF000#16 from rfl, and_family_mask, and_family_mask] at hand
  have hval := congrArg BitVec.toNat hand
  simp only [BitVec.toNat_ofNat] at hval
  omega

/-- What the rows of a family fix in w[3:0], they fix in every word they match. -/
theorem nibble_of_covers {f : Nat} {P : Nat → Prop}
    (hrows : ∀ r ∈ opcodeRows, r.code.toNat / 4096 = f → r.mask &&& 0xF = 0xF ∧ P (r.code.toNat % 16))
    {r : OpRow} (hr : r ∈ opcodeRows) {w : Word} (h : r.covers w = true) (hf : w.toNat / 4096 = f) :
    P (w.toNat % 16) := by
  obtain ⟨hmask, hcode⟩ := hrows r hr ((family_eq_of_covers hr h).symm.trans hf)
  have hval := congrArg BitVec.toNat (OpRow.and_eq_of_covers h hmask)
  have hlow : w.toNat % 16 = r.code.toNat % 16 := by simpa [RowMatch.low_nibble_bits] using hval
  exact hlow ▸ hcode

/-- What the rows of a family fix in w[7:0], they fix in every word they match. -/
theorem byte_of_covers {f : Nat} {P : Nat → Prop}
    (hrows : ∀ r ∈ opcodeRows, r.code.toNat / 4096 = f → r.mask &&& 0xFF = 0xFF ∧ P (r.code.toNat % 256))
    {r : OpRow} (hr : r ∈ opcodeRows) {w : Word} (h : r.covers w = true) (hf : w.toNat / 4096 = f) :
    P (w.toNat % 256) := by
  obtain ⟨hmask, hcode⟩ := hrows r hr ((family_eq_of_covers hr h).symm.trans hf)
  have hval := congrArg BitVec.toNat (OpRow.and_eq_of_covers h hmask)
  have hlow : w.toNat % 256 = r.code.toNat % 256 := by simpa [RowMatch.low_byte_bits] using hval
  exact hlow ▸ hcode

/-- A matched word of family 0 is one of the two instructions, whose rows fix every bit (R85). -/
theorem family0_of_covers {r : OpRow} (hr : r ∈ opcodeRows) {w : Word} (h : r.covers w = true)
    (hf : w.toNat / 4096 = 0) : w = 0x00E0 ∨ w = 0x00EE := by
  have hrows : ∀ r ∈ opcodeRows, r.code.toNat / 4096 = 0 →
      r.mask = BitVec.allOnes 16 ∧ (r.code = 0x00E0 ∨ r.code = 0x00EE) := by decide
  obtain ⟨hmask, hcode⟩ := hrows r hr ((family_eq_of_covers hr h).symm.trans hf)
  obtain rfl : w = r.code := by rw [← eq_of_beq h, hmask, BitVec.and_allOnes]
  exact hcode

/-- No row matches a word of R85's lists: the rows of a listed family fix the bits the list speaks of, to a value
that is not in it. -/
theorem not_unknownListed_of_covers {r : OpRow} (hr : r ∈ opcodeRows) {w : Word} (h : r.covers w = true) :
    ¬ UnknownListed w := by
  rintro (⟨hf, hcls, hret⟩ | ⟨hf, hlow⟩ | ⟨hf, hlow⟩ | ⟨hf, hlow⟩ | ⟨hf, hlow⟩ | ⟨hf, hlow⟩)
  · exact (family0_of_covers hr h hf).elim hcls hret
  · exact hlow (nibble_of_covers (P := (· = 0)) (by decide) hr h hf)
  · exact nibble_of_covers (P := (· ∉ [0x8, 0x9, 0xA, 0xB, 0xC, 0xD, 0xF])) (by decide) hr h hf hlow
  · exact hlow (nibble_of_covers (P := (· = 0)) (by decide) hr h hf)
  · exact hlow (byte_of_covers (P := (· ∈ [0x9E, 0xA1])) (by decide) hr h hf)
  · exact hlow (byte_of_covers (P := (· ∈ [0x07, 0x0A, 0x15, 0x18, 0x1E, 0x29, 0x33, 0x55, 0x65])) (by decide)
      hr h hf)

/-- The per-instruction family RowMatch over all instructions. -/
theorem rowMatch : ∀ i : Instr, RowMatch.Statement i
  | .cls => RowMatch.cls
  | .ret => RowMatch.ret
  | .jp nnn => RowMatch.jp nnn
  | .call nnn => RowMatch.call nnn
  | .seByte x kk => RowMatch.seByte x kk
  | .sneByte x kk => RowMatch.sneByte x kk
  | .seReg x y => RowMatch.seReg x y
  | .ldByte x kk => RowMatch.ldByte x kk
  | .addByte x kk => RowMatch.addByte x kk
  | .ldReg x y => RowMatch.ldReg x y
  | .orReg x y => RowMatch.orReg x y
  | .andReg x y => RowMatch.andReg x y
  | .xorReg x y => RowMatch.xorReg x y
  | .addReg x y => RowMatch.addReg x y
  | .subReg x y => RowMatch.subReg x y
  | .shr x y => RowMatch.shr x y
  | .subn x y => RowMatch.subn x y
  | .shl x y => RowMatch.shl x y
  | .sneReg x y => RowMatch.sneReg x y
  | .ldI nnn => RowMatch.ldI nnn
  | .jpV0 nnn => RowMatch.jpV0 nnn
  | .rnd x kk => RowMatch.rnd x kk
  | .drw x y n => RowMatch.drw x y n
  | .skp x => RowMatch.skp x
  | .sknp x => RowMatch.sknp x
  | .ldVxDT x => RowMatch.ldVxDT x
  | .ldVxK x => RowMatch.ldVxK x
  | .ldDTVx x => RowMatch.ldDTVx x
  | .ldSTVx x => RowMatch.ldSTVx x
  | .addI x => RowMatch.addI x
  | .ldF x => RowMatch.ldF x
  | .ldB x => RowMatch.ldB x
  | .storeRegs x => RowMatch.storeRegs x
  | .loadRegs x => RowMatch.loadRegs x

/-- Some row matches the word of an instruction: its own. -/
theorem exists_row_covers_encode (i : Instr) : ∃ r ∈ opcodeRows, r.covers (encode i) = true := by
  obtain ⟨r, hrow, hcov⟩ := Option.map_eq_some_iff.1 (rowMatch i)
  exact ⟨r, List.mem_of_getElem? hrow, hcov⟩

/-- No word matches two rows: any two codes differ in a bit that both masks fix. -/
theorem opcodeRows_disjoint (w : Word) :
    opcodeRows.Pairwise fun r r' => r.covers w = true → r'.covers w = true → False := by
  have hcodes : opcodeRows.Pairwise fun r r' => r.code &&& r'.mask ≠ r'.code &&& r.mask := by decide
  refine hcodes.imp fun {r r'} hne h h' => hne ?_
  have hcode : w &&& r.mask = r.code := eq_of_beq h
  have hcode' : w &&& r'.mask = r'.code := eq_of_beq h'
  rw [← hcode, ← hcode', BitVec.and_assoc, BitVec.and_assoc, BitVec.and_comm r.mask]

/-- A word that some row matches is matched by exactly one. -/
theorem length_filter_covers_of_covers {r : OpRow} (hr : r ∈ opcodeRows) {w : Word} (h : r.covers w = true) :
    (opcodeRows.filter (·.covers w)).length = 1 := by
  have hmem : r ∈ opcodeRows.filter (·.covers w) := List.mem_filter.2 ⟨hr, h⟩
  have hpair := (opcodeRows_disjoint w).filter (·.covers w)
  have hcov : ∀ r ∈ opcodeRows.filter (·.covers w), r.covers w = true := fun _ hm => (List.mem_filter.1 hm).2
  revert hmem hpair hcov
  cases opcodeRows.filter (·.covers w) with
  | nil => exact fun hmem => nomatch hmem
  | cons a rest =>
    cases rest with
    | nil => exact fun _ _ _ => rfl
    | cons b rest =>
      intro _ hpair hcov
      exact ((List.pairwise_cons.1 hpair).1 b (.head _) (hcov a (.head _)) (hcov b (.tail _ (.head _)))).elim

/-- Settles O7: an instruction's word is matched by its own row and no other, and no row matches a listed word. -/
theorem decodeFollowsOpcodeMap : Obligations.DecodeFollowsOpcodeMap := by
  intro w
  rcases decodeWord_cases w with ⟨i, hd, rfl⟩ | ⟨hd, hlist⟩
  · obtain ⟨r, hr, hcov⟩ := exists_row_covers_encode i
    exact .inl ⟨⟨i, hd⟩, length_filter_covers_of_covers hr hcov⟩
  · exact .inr ⟨hd, fun r hr => Bool.eq_false_iff.2 fun hcov => not_unknownListed_of_covers hr hcov hlist⟩

/-- Settles O8: the decoder calls only listed words Unknown, and a listed word is no instruction's: no row matches
it. -/
theorem unknownWordsAsListed : Obligations.UnknownWordsAsListed := by
  intro w
  change decodeWord w = .unknown w ↔ UnknownListed w
  rcases decodeWord_cases w with ⟨i, hd, rfl⟩ | ⟨hd, hlist⟩
  · obtain ⟨r, hr, hcov⟩ := exists_row_covers_encode i
    rw [hd]
    exact ⟨nofun, fun hlist => absurd hlist (not_unknownListed_of_covers hr hcov)⟩
  · exact ⟨fun _ => hlist, fun _ => hd⟩

/-- Settles O5: eight of the words are encodings, and R85 lists the other two. -/
theorem tableWordsDecode : Obligations.TableWordsDecode :=
  ⟨decodeWord_encode .cls, decodeWord_encode .ret, decodeWord_encode (.shr 0xA 0xB),
    decodeWord_encode (.loadRegs 0xA), decodeWord_encode (.drw 0 0 0), decodeWord_encode (.jpV0 0xA00),
    decodeWord_encode (.seByte 0xF 0xFE), decodeWord_encode (.sknp 5),
    (unknownWordsAsListed _).2 (by decide), (unknownWordsAsListed _).2 (by decide)⟩

end Sys2Proof
end

section
/-! SUPPORT. The cycle (40_cycle.md): what one fetch does (R102, R103, R106), which steps are a cycle (R101), and what
every instruction answers (R105, R108). -/

namespace Sys2Proof.Machine

/-! ## One cycle -/

/-- A fetch beyond 0xFFE takes the fault with no word (R102). -/
theorem State.runCycle_beyond {s : State} (hp : 0xFFE < s.pc.toNat) :
    s.runCycle = .next (s.takeFault .addressOutOfRange none (some s.pc.toNat)) := if_pos hp

/-- From a legal address a cycle executes what the fetched word decodes to (R103, R105). -/
theorem State.runCycle_fetchable {s : State} {d : Decoded} (hp : s.pc.toNat ≤ 0xFFE)
    (hd : decodeWord s.fetchWord = d) : s.runCycle = execDecoded d s :=
  hd ▸ if_neg (Nat.not_lt.mpr hp)

/-- An Unknown word's report and PC advance leave the rest of the state as it was (R106). -/
theorem execUnknown_sameExcept (s : State) (w : Word) :
    ∃ t, execUnknown w s = .next t ∧ t.pc = s.pc + 2 ∧
      t.reports = s.reports ++ [⟨.unknownOpcode, s.pc, some w, none⟩] ∧ SameExcept [.pc, .reports] s t := by
  refine ⟨_, rfl, rfl, rfl, fun p hp => ?_⟩
  cases p with
  | pc | reports => simp at hp
  | v | mem => exact fun _ => rfl
  | rnd => exact ⟨rfl, rfl⟩
  | i | sp | stack | dt | st | disp | keys | run | elapsed | cfg | loadStatus | started | inputs => rfl

/-! ## The CPU clock -/

/-- Where a cycle may run, the cpuClock input runs it (R101). -/
theorem step_cpuClock_of_canCycle {s : State} {rest : List Input} (hc : CanCycle s)
    (hi : s.inputs = .cpuClock :: rest) : step s = State.runCycle { s with inputs := rest, started := true } :=
  (step_cons hi).trans <| (State.clockCpu_cases { s with inputs := rest }).elim And.right fun h => absurd hc h.1

/-- Where no cycle may run, the cpuClock input is taken and does nothing (R101; log entry 12). -/
theorem step_cpuClock_of_not_canCycle {s : State} {rest : List Input} (hc : ¬ CanCycle s)
    (hi : s.inputs = .cpuClock :: rest) : step s = .next { s with inputs := rest } :=
  (step_cons hi).trans <| (State.clockCpu_cases { s with inputs := rest }).elim (fun h => absurd h.1 hc) And.right

/-- From a legal address, the cpuClock input executes what the fetched word decodes to. -/
theorem step_cpuClock_fetchable {s : State} {rest : List Input} {d : Decoded} (hc : CanCycle s)
    (hi : s.inputs = .cpuClock :: rest) (hp : s.pc.toNat ≤ 0xFFE) (hd : decodeWord s.fetchWord = d) :
    step s = execDecoded d { s with inputs := rest, started := true } :=
  (step_cpuClock_of_canCycle hc hi).trans
    (State.runCycle_fetchable (s := { s with inputs := rest, started := true }) hp hd)

/-- A frame around the clocked state is one around the state before the clock, which took an input and set the
started mark. -/
theorem SameExcept.of_clocked {s t : State} {rest : List Input} {changed : List Part}
    (h : SameExcept changed { s with inputs := rest, started := true } t) :
    SameExcept (changed ++ [.inputs, .started]) s t := by
  intro p hp
  simp only [List.mem_append, List.mem_cons, List.not_mem_nil, or_false, not_or] at hp
  obtain ⟨hchanged, hinputs, hstarted⟩ := hp
  have hsame := h p hchanged
  cases p with
  | inputs => exact absurd rfl hinputs
  | started => exact absurd rfl hstarted
  | v | i | pc | sp | stack | dt | st | mem | disp | keys | run | elapsed | cfg | reports | loadStatus | rnd =>
    exact hsame

/-- Settles O9: with or without its input, the clocked cycle executes the decoded word. -/
theorem stepRunsDecodedInstruction : Obligations.StepRunsDecodedInstruction := by
  intro s i hc hp hd
  constructor
  · intro hi
    exact (step_nil_of_canCycle hi hc).trans (State.runCycle_fetchable (s := s.beginCycle) hp hd)
  · intro rest hi
    exact step_cpuClock_fetchable hc hi hp hd

/-- Settles O11: the cycle of an Unknown word is `execUnknown` on the clocked state. -/
theorem unknownIsReportedNoOp : Obligations.UnknownIsReportedNoOp := by
  intro s w rest hc hp hi hd
  obtain ⟨t, hexec, hpc, hreports, hsame⟩ := execUnknown_sameExcept { s with inputs := rest, started := true } w
  exact ⟨t, (step_cpuClock_fetchable hc hi hp hd).trans hexec, hpc, hreports, hsame.of_clocked⟩

/-- Settles O12: the clocked cycle takes the fetch fault. -/
theorem fetchBeyondMemoryFaults : Obligations.FetchBeyondMemoryFaults := by
  intro s rest hc hp hi
  exact ⟨_, (step_cpuClock_of_canCycle hc hi).trans (State.runCycle_beyond hp), State.takeFault_faulted _ _ _ _⟩

/-- Settles O13: a core that does not run can run no cycle. -/
theorem noCycleUnlessRunning : Obligations.NoCycleUnlessRunning :=
  fun _ _ hrun hi => step_cpuClock_of_not_canCycle (fun hc => hrun hc.1) hi

/-! ## A placed word -/

/-- The address a word is placed at is a legal fetch (R102; log entry 7). -/
theorem State.fetchPc_le (s : State) : s.fetchPc.toNat ≤ 0xFFE := by
  unfold State.fetchPc
  split_ifs with h
  · decide
  · exact Nat.le_of_not_lt h

/-- A word stored at PC, most significant byte first, is the word fetched (R54, R103). -/
theorem State.fetchWord_putBytes {s : State} (hm : MemoryCanonical s) (hp : s.pc.toNat ≤ 0xFFE) (w : Word) :
    (s.putBytes s.pc.toNat [highByte w, lowByte w]).fetchWord = w := by
  have hrange : s.pc.toNat + [highByte w, lowByte w].length ≤ 4096 := by
    change s.pc.toNat + 2 ≤ 4096
    omega
  have hhigh := State.byteAt_putBytes_add hm hrange (j := 0) (by simp)
  have hlow := State.byteAt_putBytes_add hm hrange (j := 1) (by simp)
  exact (congrArg₂ wordOfBytes hhigh hlow).trans (wordOfBytes_highByte_lowByte w)

/-- The state with a word placed fetches that word. -/
theorem State.withFetchWord_fetchWord {s : State} (hm : MemoryCanonical s) (nbits w : Nat) :
    (s.withFetchWord nbits w).fetchWord = BitVec.ofNat 16 (w % 2 ^ nbits) :=
  State.fetchWord_putBytes (s := { s with pc := s.fetchPc }) hm s.fetchPc_le _

/-- The state with a word placed can run a cycle (log entry 7). -/
theorem State.withFetchWord_canCycle (s : State) (nbits w : Nat) : CanCycle (s.withFetchWord nbits w) := by
  refine ⟨rfl, ?_⟩
  change (if s.loadStatus = .romTooLarge then .none else s.loadStatus) ≠ LoadStatus.romTooLarge
  split_ifs with h
  · nofun
  · exact h

/-- Settles O10: the placed word is what the free-running core fetches. -/
theorem placedWordRunsNext : Obligations.PlacedWordRunsNext := by
  intro s w i hm hw
  have hd : decodeWord (s.withFetchWord 16 w).fetchWord = .instr i :=
    (congrArg decodeWord (State.withFetchWord_fetchWord hm 16 w)).trans (decodeTableWord_eq_some hw)
  obtain ⟨hfree, -⟩ := stepRunsDecodedInstruction _ i (s.withFetchWord_canCycle 16 w) s.fetchPc_le hd
  exact hfree rfl

/-! ## Every instruction and every step -/

/-- Settles O45: an instruction that can fault answers its fault as a next state (R203). -/
theorem everyInstructionAnswersNext : Obligations.EveryInstructionAnswersNext := by
  intro i s
  cases i with
  | ret => rcases execRet_cases s with ⟨-, e⟩ | ⟨-, e⟩ <;> exact ⟨_, e⟩
  | call nnn => rcases execCall_cases nnn s with ⟨-, e⟩ | ⟨-, e⟩ <;> exact ⟨_, e⟩
  | drw x y n => rcases execDrw_cases x y n s with ⟨-, e⟩ | ⟨-, -, e⟩ <;> exact ⟨_, e⟩
  | loadRegs x => rcases execLoadRegs_cases x s with ⟨-, e⟩ | ⟨-, e⟩ <;> exact ⟨_, e⟩
  | ldB x =>
    rcases s.finishStore_memWrite_cases (.ldB x) s.i.toNat _ (decimalDigits_ne_nil (s.getV x)) with
      ⟨-, e⟩ | ⟨-, _, e, -⟩ <;> exact ⟨_, e⟩
  | storeRegs x =>
    rcases s.finishStore_memWrite_cases (.storeRegs x) s.i.toNat _ (s.regBlock_ne_nil x) with
      ⟨-, e⟩ | ⟨-, _, e, -⟩ <;> exact ⟨_, e⟩
  | skp x =>
    rcases s.keyPressed_cases (s.getV x) with ⟨down, e⟩ | ⟨-, -, e⟩ <;>
      simp only [exec, execSkp, e] <;> exact ⟨_, rfl⟩
  | sknp x =>
    rcases s.keyPressed_cases (s.getV x) with ⟨down, e⟩ | ⟨-, -, e⟩ <;>
      simp only [exec, execSknp, e] <;> exact ⟨_, rfl⟩
  | addI x => cases e : s.cfg.addiVf <;> simp only [exec, execAddI, e] <;> exact ⟨_, rfl⟩
  | cls | jp | jpV0 | seByte | sneByte | seReg | sneReg | ldByte | addByte | ldReg | orReg | andReg | xorReg | addReg
  | subReg | shr | subn | shl | ldI | rnd | ldVxDT | ldVxK | ldDTVx | ldSTVx | ldF => exact ⟨_, rfl⟩

/-- Every kind of step keeps the started mark of a core that does not run: a cycle sets it, and what clears it,
Init, leaves the core running. -/
theorem StartedUnlessRunning.of_stepped {s t : State} (h : StartedUnlessRunning s) (hs : Stepped s t) :
    StartedUnlessRunning t := by
  cases hs with
  | fetchFault | instrFault | unknown => exact fun _ => rfl
  | completed _ _ _ _ _ done => exact fun _ => done.started
  | init | keyWait => exact absurd rfl
  | timers | loaded | tooLarge | key | rnd => exact h

/-- Settles O56, by the kinds of step of `step_inversion`. -/
theorem stepKeepsStartedUnlessRunning : Obligations.StepKeepsStartedUnlessRunning :=
  fun _ _ h hstep => h.of_stepped (step_inversion hstep)

end Sys2Proof.Machine
end

section
/-! SUPPORT. Jumps, calls and returns (41_flow.md R120 to R123): the call stack, one equation per way the instruction
can go, and the frame they share. -/

namespace Sys2Proof.Machine

/-! ## The call stack -/

/-- Below 15, the next SP does not wrap (R122). -/
theorem sp_add_one_val {sp : Fin 16} (h : sp ≠ 15) : (sp + 1).val = sp.val + 1 :=
  Fin.val_add_one_of_lt (Fin.lt_last_iff_ne_last.2 h)

/-- A push below 15 leaves a stack that is not empty. -/
theorem State.push_sp_ne_zero {s : State} (h : s.sp ≠ 15) (w : Word) : (s.push w).sp ≠ 0 :=
  Fin.ne_of_val_ne (by simp [sp_add_one_val h])

/-- The pushed word is on top. -/
@[simp] theorem State.push_stackTop (s : State) (w : Word) : (s.push w).stackTop = w := by simp [State.stackTop]

/-- A push leaves every entry but the new top. -/
theorem State.push_stack_of_ne (s : State) (w : Word) {j : Fin 16} (h : j ≠ (s.push w).sp) :
    (s.push w).stack[j.val] = s.stack[j.val] :=
  Vector.getElem_set_ne (s.sp + 1).isLt _ (Fin.val_ne_of_ne h.symm)

/-! ## What each instruction answers -/

/-- RET with an entry on the stack goes to the top one (R120). -/
theorem exec_ret_of_sp_ne_zero {s : State} (h : s.sp ≠ 0) : exec .ret s = .next { s.pop with pc := s.stackTop } :=
  (execRet_cases s).elim And.right fun hempty => absurd hempty.1 h

/-- RET with no entry on the stack raises its underflow (R120). -/
theorem exec_ret_of_sp_eq_zero {s : State} (h : s.sp = 0) : exec .ret s = s.raise .stackUnderflow .ret none :=
  (execRet_cases s).elim (fun hentry => absurd h hentry.1) And.right

/-- CALL with room on the stack pushes the next instruction's address and jumps (R122). -/
theorem exec_call_of_sp_ne_last {s : State} (h : s.sp ≠ 15) (nnn : Addr) :
    exec (.call nnn) s = .next { s.push (s.pc + 2) with pc := nnn.setWidth 16 } :=
  (execCall_cases nnn s).elim And.right fun hfull => absurd hfull.1 h

/-- CALL with a full stack raises its overflow (R122). -/
theorem exec_call_of_sp_eq_last {s : State} (h : s.sp = 15) (nnn : Addr) :
    exec (.call nnn) s = s.raise .stackOverflow (.call nnn) none :=
  (execCall_cases nnn s).elim (fun hroom => absurd h hroom.1) And.right

/-- A jump's zero-extended target is the 12-bit address itself (R121). -/
theorem jumpTarget_toNat (nnn : Addr) : (nnn.setWidth 16 : Word).toNat = nnn.toNat :=
  BitVec.toNat_setWidth_of_le (by decide)

/-- The sum of JP V0 fits in 16 bits, so it is never reduced (R123; D5). -/
theorem jumpV0Target_toNat (b : Byte) (nnn : Addr) :
    (b.setWidth 16 + nnn.setWidth 16 : Word).toNat = b.toNat + nnn.toNat := by
  bv_omega

/-- A flow instruction writes nothing but PC, SP and the stack; of these a frame may leave out what keeps its value. -/
theorem SameExcept.of_flow {s : State} {pc : Word} {sp : Fin 16} {stack : Vector Word 16} {changed : List Part}
    (hpc : .pc ∈ changed) (hsp : .sp ∈ changed ∨ sp = s.sp) (hstack : .stack ∈ changed ∨ stack = s.stack) :
    SameExcept changed s { s with pc := pc, sp := sp, stack := stack } := by
  intro p hp
  cases p with
  | pc => exact absurd hpc hp
  | sp => exact hsp.resolve_left hp
  | stack => exact hstack.resolve_left hp
  | v | mem => exact fun _ => rfl
  | rnd => exact ⟨rfl, rfl⟩
  | i | dt | st | disp | keys | run | elapsed | cfg | reports | loadStatus | started | inputs => rfl

/-! ## The statements -/

/-- Settles O18: the RET finds the CALL's own entry on top of the stack, and its pop undoes the push of SP. -/
theorem returnUndoesCall : Obligations.ReturnUndoesCall := by
  intro s nnn h
  have hentry : (s.push (s.pc + 2)).sp ≠ 0 := State.push_sp_ne_zero h _
  have hsp : s.sp + 1 - 1 = s.sp := add_sub_cancel_right _ _
  exact ⟨_, _, exec_call_of_sp_ne_last h nnn, exec_ret_of_sp_ne_zero hentry, s.push_stackTop _, hsp,
    .of_flow (by decide) (.inr hsp) (.inl (by decide))⟩

/-- Settles O15: RET pops, or takes its underflow. -/
theorem returnPopsAddress : Obligations.ReturnPopsAddress := by
  intro s
  constructor
  · intro h
    have hsp : (s.sp - 1).val + 1 = s.sp.val := by
      rw [Fin.val_sub_one_of_ne_zero h]
      exact Nat.sub_add_cancel (Fin.pos_iff_ne_zero.2 h)
    exact ⟨_, exec_ret_of_sp_ne_zero h, rfl, hsp, .of_flow (by decide) (.inl (by decide)) (.inr rfl)⟩
  · intro h
    exact ⟨_, exec_ret_of_sp_eq_zero h, s.takeFault_faulted _ _ _⟩

/-- Settles O16: the target of JP is zero-extended, and the sum of JP V0 fits in PC. -/
theorem jumpsSetPc : Obligations.JumpsSetPc := by
  intro s nnn
  have hframe (pc : Word) : SameExcept [.pc] s { s with pc := pc } := .of_flow (by decide) (.inr rfl) (.inr rfl)
  exact ⟨⟨_, rfl, jumpTarget_toNat nnn, hframe _⟩, ⟨_, rfl, jumpV0Target_toNat (s.getV 0) nnn, hframe _⟩⟩

/-- Settles O17: CALL pushes the return address and jumps, or takes its overflow. -/
theorem callPushesReturnAddress : Obligations.CallPushesReturnAddress := by
  intro s nnn
  constructor
  · intro h
    exact ⟨_, exec_call_of_sp_ne_last h nnn, jumpTarget_toNat nnn, sp_add_one_val h, s.push_stackTop _,
      fun _ hj => s.push_stack_of_ne _ hj, .of_flow (by decide) (.inl (by decide)) (.inl (by decide))⟩
  · intro h
    exact ⟨_, exec_call_of_sp_eq_last h nnn, s.takeFault_faulted _ _ _⟩

end Sys2Proof.Machine
end

section
/-! SUPPORT. Conditional skips (42_skip.md R130 to R137): the frame of a skip, and the key test under each
KEY_INDEX_POLICY. -/

namespace Sys2Proof.Machine

/-! ## A skip -/

/-- A skip changes PC alone (R130). -/
theorem State.skipIf_sameExcept (s : State) (c : Bool) : SameExcept [.pc] s (s.skipIf c) :=
  .of_flow (by decide) (.inr rfl) (.inr rfl)

/-- An instruction that is a skip on `c` moves PC by 4 exactly under the condition `c` decides (R130). -/
theorem exec_skips_iff {i : Instr} {s : State} {c : Bool} {skip : Prop} (hexec : exec i s = .next (s.skipIf c))
    (hc : skip ↔ c = true) :
    ∃ t, exec i s = .next t ∧ (skip → t.pc = s.pc + 4) ∧ (¬ skip → t.pc = s.pc + 2) ∧ SameExcept [.pc] s t :=
  ⟨_, hexec, fun h => if_pos (hc.1 h), fun h => if_neg (mt hc.2 h), s.skipIf_sameExcept c⟩

/-- Settles O19: each form is a skip on the Boolean test of its comparison. -/
theorem skipsOnComparison : Obligations.SkipsOnComparison := by
  rintro s x y kk i skip (⟨rfl, hskip⟩ | ⟨rfl, hskip⟩ | ⟨rfl, hskip⟩ | ⟨rfl, hskip⟩)
  case inl | inr.inr.inl => exact exec_skips_iff rfl (hskip.trans beq_iff_eq.symm)
  case inr.inl | inr.inr.inr => exact exec_skips_iff rfl (hskip.trans bne_iff_ne.symm)

/-! ## The key test (R137) -/

/-- A byte that names a key tests that key, under every policy. -/
theorem State.keyPressed_of_key (s : State) {b : Byte} {k : Key} (h : b.toNat = k.val) :
    s.keyPressed b = .ok (s.keyDown k) := by
  have hle : b.toNat ≤ 0xF := by omega
  have hk : lowNibble b = k := Fin.ext ((Nat.mod_eq_of_lt (Nat.lt_succ_of_le hle)).trans h)
  rw [State.keyPressed, if_pos hle, hk]

/-- Above 0xF there is no key under KEY_INDEX_POLICY = not_pressed. -/
theorem State.keyPressed_notPressed {s : State} {b : Byte} (hb : 0xF < b.toNat) (hp : s.cfg.keyIndex = .notPressed) :
    s.keyPressed b = .ok false := by
  rw [State.keyPressed, if_neg (Nat.not_le.mpr hb), hp]

/-- Above 0xF the low nibble names the key under KEY_INDEX_POLICY = low_nibble. -/
theorem State.keyPressed_lowNibble {s : State} {b : Byte} {k : Key} (hb : 0xF < b.toNat)
    (hp : s.cfg.keyIndex = .lowNibble) (h : b.toNat % 16 = k.val) : s.keyPressed b = .ok (s.keyDown k) := by
  have hk : lowNibble b = k := Fin.ext h
  rw [State.keyPressed, if_neg (Nat.not_le.mpr hb), hp, hk]

/-- Above 0xF the test faults with the byte as address under KEY_INDEX_POLICY = fault. -/
theorem State.keyPressed_fault {s : State} {b : Byte} (hb : 0xF < b.toNat) (hp : s.cfg.keyIndex = .fault) :
    s.keyPressed b = .error b.toNat := by
  rw [State.keyPressed, if_neg (Nat.not_le.mpr hb), hp]

/-- Where the key test answers, SKP skips on the answer (R135). -/
theorem exec_skp_of_ok {s : State} {x : Reg} {down : Bool} (h : s.keyPressed (s.getV x) = .ok down) :
    exec (.skp x) s = .next (s.skipIf down) := by
  simp only [exec, execSkp, h]

/-- Where the key test answers, SKNP skips on its negation (R136). -/
theorem exec_sknp_of_ok {s : State} {x : Reg} {down : Bool} (h : s.keyPressed (s.getV x) = .ok down) :
    exec (.sknp x) s = .next (s.skipIf (!down)) := by
  simp only [exec, execSknp, h]

/-- Where the key test faults, so does SKP (R135). -/
theorem exec_skp_of_error {s : State} {x : Reg} {a : Nat} (h : s.keyPressed (s.getV x) = .error a) :
    exec (.skp x) s = s.raise .addressOutOfRange (.skp x) (some a) := by
  simp only [exec, execSkp, h]

/-- Where the key test faults, so does SKNP (R136). -/
theorem exec_sknp_of_error {s : State} {x : Reg} {a : Nat} (h : s.keyPressed (s.getV x) = .error a) :
    exec (.sknp x) s = s.raise .addressOutOfRange (.sknp x) (some a) := by
  simp only [exec, execSknp, h]

/-- Settles O20: SKP and SKNP follow the key test, which answers or faults as the policy says. -/
theorem skipsOnKey : Obligations.SkipsOnKey := by
  intro s x down
  constructor
  · intro htested
    have hkey : s.keyPressed (s.getV x) = .ok down := by
      rcases htested with ⟨k, hk, rfl⟩ | ⟨hx, hp, rfl⟩ | ⟨hx, hp, k, hk, rfl⟩
      · exact s.keyPressed_of_key hk
      · exact State.keyPressed_notPressed hx hp
      · exact State.keyPressed_lowNibble hx hp hk
    refine ⟨⟨_, exec_skp_of_ok hkey, rfl, s.skipIf_sameExcept _⟩,
      ⟨_, exec_sknp_of_ok hkey, ?_, s.skipIf_sameExcept _⟩⟩
    cases down <;> rfl
  · rintro ⟨hx, hp⟩
    have hkey := State.keyPressed_fault hx hp
    exact ⟨⟨_, exec_skp_of_error hkey, s.takeFault_faulted _ _ _⟩,
      ⟨_, exec_sknp_of_error hkey, s.takeFault_faulted _ _ _⟩⟩

end Sys2Proof.Machine
end

section
/-! SUPPORT. Register loads and arithmetic (43_alu.md R138 to R151): the flags and results as numbers, and what an
instruction that writes Vx, with or without a flag, leaves. -/

namespace Sys2Proof.Machine

/-! ## Results and flags (R138) -/

/-- The flag of a decided condition, as 10_state.md R32 writes it. -/
theorem flag_decide (p : Prop) [Decidable p] : flag (decide p) = if p then 1 else 0 := by
  simp only [flag, decide_eq_true_eq]

/-- A flag byte is its condition's number. -/
theorem flag_toNat (c : Bool) : (flag c).toNat = c.toNat := by cases c <;> rfl

theorem sumByte_toNat (a b : Byte) : (sumByte a b).toNat = (a.toNat + b.toNat) % 256 := BitVec.toNat_ofNat _ _

/-- The narrowed difference is the mathematical residue (00_scope.md R8). -/
theorem diffByte_toNat (a b : Byte) : ((diffByte a b).toNat : Int) = ((a.toNat : Int) - b.toNat) % 256 := by
  rw [diffByte, BitVec.toNat_ofInt]
  exact Int.toNat_of_nonneg (Int.emod_nonneg _ (by decide))

theorem shiftRightByte_toNat (b : Byte) : (shiftRightByte b).toNat = b.toNat / 2 :=
  Nat.mod_eq_of_lt (Nat.lt_of_le_of_lt (Nat.div_le_self _ _) b.isLt)

/-- SHR's flag is the operand's lowest bit. -/
theorem shiftRightFlag_toNat (b : Byte) : (shiftRightFlag b).toNat = b.toNat % 2 := by
  rw [shiftRightFlag, flag_toNat, BitVec.getLsbD, Nat.toNat_testBit, pow_zero, Nat.div_one]

theorem shiftLeftByte_toNat (b : Byte) : (shiftLeftByte b).toNat = 2 * b.toNat % 256 := BitVec.toNat_ofNat _ _

/-- SHL's flag is the operand's highest bit. -/
theorem shiftLeftFlag_toNat (b : Byte) : (shiftLeftFlag b).toNat = b.toNat / 128 := by
  have hbit : b.toNat / 128 < 2 := Nat.div_lt_of_lt_mul b.isLt
  rw [shiftLeftFlag, flag_toNat, BitVec.getLsbD, Nat.toNat_testBit]
  exact Nat.mod_eq_of_lt hbit

/-- SHIFT_SOURCE selects the shifted register (D9). -/
theorem State.shiftOperand_eq (s : State) (x y : Reg) :
    s.shiftOperand x y = if s.cfg.shiftSource = .vx then s.getV x else s.getV y := by
  cases e : s.cfg.shiftSource with
  | vx | vy => simp only [State.shiftOperand, e, reduceCtorEq, if_true, if_false]

/-- The oldest byte on the rnd port is the one rnd() gives (R151). -/
theorem State.rndByte_of_cons {s : State} {b : Byte} {rest : List Byte} (h : s.rndIn = b :: rest) :
    s.rndByte = b := by
  rw [State.rndByte, h]

/-! ## What a register write leaves -/

/-- A write of Vx leaves the other registers. -/
theorem State.setV_regsSameExcept (s : State) (x : Reg) (r : Byte) : RegsSameExcept [x] s (s.setV x r) :=
  fun q hq => (s.getV_setV x q r).trans (if_neg (List.ne_of_not_mem_cons hq))

/-- Two writes, one after the other, leave the registers that neither of them may change. -/
theorem RegsSameExcept.trans {s t u : State} {xs ys : List Reg} (hst : RegsSameExcept xs s t)
    (htu : RegsSameExcept ys t u) : RegsSameExcept (xs ++ ys) s u :=
  fun q hq => (htu q fun h => hq (List.mem_append_right xs h)).trans (hst q fun h => hq (List.mem_append_left ys h))

/-- An arithmetic instruction writes nothing but registers, PC and the random input; a frame may leave out the last
where it keeps its value. -/
theorem SameExcept.of_alu {s : State} {v : Vector Byte 16} {pc : Word} {rndIn : List Byte} {rndCount : Nat}
    {changed : List Part} (hv : .v ∈ changed) (hpc : .pc ∈ changed)
    (hrnd : .rnd ∈ changed ∨ (rndIn = s.rndIn ∧ rndCount = s.rndCount)) :
    SameExcept changed s { s with v := v, pc := pc, rndIn := rndIn, rndCount := rndCount } := by
  intro p hp
  cases p with
  | v => exact absurd hv hp
  | pc => exact absurd hpc hp
  | rnd => exact hrnd.resolve_left hp
  | mem => exact fun _ => rfl
  | i | sp | stack | dt | st | disp | keys | run | elapsed | cfg | reports | loadStatus | started | inputs => rfl

/-- An instruction that is a write of Vx and the default advance. -/
theorem exec_writes_register {i : Instr} {s : State} {x : Reg} {r : Byte} (hexec : exec i s = (s.setV x r).done) :
    ∃ t, exec i s = .next t ∧ t.getV x = r ∧ t.pc = s.pc + 2 ∧ RegsSameExcept [x] s t ∧ SameExcept [.v, .pc] s t :=
  ⟨_, hexec, (s.getV_setV x x r).trans (if_pos rfl), rfl, s.setV_regsSameExcept x r,
    .of_alu (by decide) (by decide) (.inr ⟨rfl, rfl⟩)⟩

/-- An instruction with a flag effect: the flag is written last, so in VF it stands over the result (R138). -/
theorem exec_writes_flag_last {i : Instr} {s : State} {x : Reg} {r f : Byte} (hexec : exec i s = s.writeResult x r f) :
    ∃ t, exec i s = .next t ∧ t.getV VF = f ∧ (x ≠ VF → t.getV x = r) ∧ t.pc = s.pc + 2 ∧
      RegsSameExcept [x, VF] s t ∧ SameExcept [.v, .pc] s t := by
  have hflag : ((s.setV x r).setFlag f).getV VF = f := by simp
  have hresult (hx : x ≠ VF) : ((s.setV x r).setFlag f).getV x = r := by simp [hx]
  exact ⟨_, hexec, hflag, hresult, rfl, (s.setV_regsSameExcept x r).trans ((s.setV x r).setV_regsSameExcept VF f),
    .of_alu (by decide) (by decide) (.inr ⟨rfl, rfl⟩)⟩

/-! ## The statements -/

/-- Settles O21: both forms write Vx, the byte itself or the narrowed sum. -/
theorem loadAndAddByte : Obligations.LoadAndAddByte := by
  intro s x kk
  obtain ⟨t, hexec, hx, hframe⟩ := exec_writes_register (i := .addByte x kk) (s := s) rfl
  exact ⟨exec_writes_register rfl, t, hexec, hx ▸ sumByte_toNat _ _, hframe⟩

/-- Settles O22: each form is a write of Vx. -/
theorem copyAndBitwise : Obligations.CopyAndBitwise := by
  rintro s x y i r (⟨rfl, rfl⟩ | ⟨rfl, rfl⟩ | ⟨rfl, rfl⟩ | ⟨rfl, rfl⟩)
  case inl | inr.inl | inr.inr.inl | inr.inr.inr => exact exec_writes_register rfl

/-- Settles O23: the sum is written, then its carry. -/
theorem addSetsCarryLast : Obligations.AddSetsCarryLast := by
  intro s x y
  obtain ⟨t, hexec, hflag, hx, hframe⟩ := exec_writes_flag_last (i := .addReg x y) (s := s) rfl
  exact ⟨t, hexec, hflag.trans (flag_decide _), fun hne => hx hne ▸ sumByte_toNat _ _, hframe⟩

/-- SUB and SUBN, as the difference of any minuend and subtrahend, then its no-borrow flag (R147, R149). -/
theorem exec_subtracts {i : Instr} {s : State} {x : Reg} {a b : Byte}
    (hexec : exec i s = s.writeResult x (diffByte a b) (noBorrowFlag a b)) :
    ∃ t, exec i s = .next t ∧ t.getV VF = (if a.toNat ≥ b.toNat then 1 else 0) ∧
      (x ≠ VF → ((t.getV x).toNat : Int) = ((a.toNat : Int) - b.toNat) % 256) ∧
      t.pc = s.pc + 2 ∧ RegsSameExcept [x, VF] s t ∧ SameExcept [.v, .pc] s t := by
  obtain ⟨t, hnext, hflag, hx, hframe⟩ := exec_writes_flag_last hexec
  exact ⟨t, hnext, hflag.trans (flag_decide _), fun hne => hx hne ▸ diffByte_toNat _ _, hframe⟩

/-- Settles O24: SUB and SUBN subtract, with the operands in either order. -/
theorem subtractSetsNoBorrowLast : Obligations.SubtractSetsNoBorrowLast := by
  rintro s x y i a b (⟨rfl, rfl, rfl⟩ | ⟨rfl, rfl, rfl⟩)
  case inl | inr => exact exec_subtracts rfl

/-- Settles O25: the operand is the one SHIFT_SOURCE selects; the shifted byte is written, then the bit shifted out. -/
theorem shiftsByOne : Obligations.ShiftsByOne := by
  intro s x y b hb
  obtain rfl : b = s.shiftOperand x y := hb.trans (s.shiftOperand_eq x y).symm
  constructor
  · obtain ⟨t, hexec, hflag, hx, hframe⟩ := exec_writes_flag_last (i := .shr x y) (s := s) rfl
    exact ⟨t, hexec, hflag ▸ shiftRightFlag_toNat _, fun hne => hx hne ▸ shiftRightByte_toNat _, hframe⟩
  · obtain ⟨t, hexec, hflag, hx, hframe⟩ := exec_writes_flag_last (i := .shl x y) (s := s) rfl
    exact ⟨t, hexec, hflag ▸ shiftLeftFlag_toNat _, fun hne => hx hne ▸ shiftLeftByte_toNat _, hframe⟩

/-- Settles O26: the byte is the one rnd() gives, which is the oldest on the port where it holds one. -/
theorem randomByteUnderMask : Obligations.RandomByteUnderMask := by
  intro s x kk
  have hx : (s.takeRnd.setV x (s.rndByte &&& kk)).getV x = s.rndByte &&& kk := by simp
  have holdest (b : Byte) (rest : List Byte) (h : s.rndIn = b :: rest) : s.rndByte = b ∧ s.rndIn.tail = rest :=
    ⟨State.rndByte_of_cons h, congrArg List.tail h⟩
  exact ⟨_, s.rndByte, rfl, hx, holdest, rfl, rfl, s.takeRnd.setV_regsSameExcept x _,
    .of_alu (by decide) (by decide) (.inl (by decide))⟩

end Sys2Proof.Machine
end

section
/-! SUPPORT. The display (44_display.md R160 to R166): a display as its pixels, what drawings do to it, and what CLS and
DRW answer. -/

namespace Sys2Proof.Machine

/-! ## A display as its pixels -/

/-- Displays with the same pixels are the same (R33). -/
theorem Display.ext_pixel {d e : Display} (h : ∀ py px, d.pixel py px = e.pixel py px) : d = e :=
  Vector.ext fun py hy => BitVec.eq_of_getLsbD_eq fun px hx => h ⟨py, hy⟩ ⟨px, hx⟩

/-- A drawing that covers no pixel leaves the display and raises no collision (R166). -/
theorem Drew.eq_of_covers_none {covered : Fin 32 → Fin 64 → Prop} {before after : Display × Bool}
    (h : Drew covered before after) (hnone : ∀ py px, ¬ covered py px) : after = before := by
  have hdisp : after.1 = before.1 := Display.ext_pixel fun py px => by
    have hpixel := h.pixels py px
    rwa [iff_false_right (hnone py px), not_not, ← Bool.eq_iff_iff] at hpixel
  have hcollision : after.2 = true ↔ before.2 = true :=
    h.collision.trans (or_iff_left fun ⟨py, px, hcovered, _⟩ => hnone py px hcovered)
  exact Prod.ext hdisp (Bool.eq_iff_iff.2 hcollision)

/-- Flipping the same pixels twice restores the display (S6). -/
theorem Drew.display_eq_of_twice {covered : Fin 32 → Fin 64 → Prop} {d₀ d₁ d₂ : Display} {f₀ f₁ g₁ g₂ : Bool}
    (first : Drew covered (d₀, f₀) (d₁, f₁)) (second : Drew covered (d₁, g₁) (d₂, g₂)) : d₂ = d₀ :=
  Display.ext_pixel fun py px => by
    have h1 := first.pixels py px
    have h2 := second.pixels py px
    rw [Bool.eq_iff_iff]
    tauto

/-- A clear pixel that is covered is set by the drawing. -/
theorem Drew.pixel_set {covered : Fin 32 → Fin 64 → Prop} {before after : Display × Bool}
    (h : Drew covered before after) {py : Fin 32} {px : Fin 64} (hcovered : covered py px)
    (hclear : before.1.pixel py px = false) : after.1.pixel py px = true :=
  (h.pixels py px).2 fun hiff => Bool.false_ne_true (hclear.symm.trans (hiff.2 hcovered))

/-! ## What DRW answers -/

/-- A sprite inside memory is drawn, and VF is the collision of that drawing (R162). -/
theorem exec_drw_of_inside {s : State} (x y : Reg) {n : Fin 16} (h : n.val = 0 ∨ s.i.toNat + n.val ≤ 0x1000) :
    ∃ d c, exec (.drw x y n) s = .next (State.setFlag { s with disp := d } (flag c)).advance ∧
      Drew (SpriteCovers s (s.getV x).toNat (s.getV y).toNat n.val) (s.disp, false) (d, c) := by
  have hexec := (execDrw_cases x y n s).elim And.right fun ⟨_, _, _⟩ => by omega
  exact ⟨_, _, hexec, drawSprite_bytesAt_drew s _ _ n.val (by omega)⟩

/-- A sprite that leaves memory raises the fault of its last byte (R55, R162). -/
theorem exec_drw_of_beyond {s : State} (x y : Reg) {n : Fin 16} (hn : 1 ≤ n.val)
    (h : 0x1000 < s.i.toNat + n.val) :
    exec (.drw x y n) s = s.raise .addressOutOfRange (.drw x y n) (some (s.i.toNat + n.val - 1)) :=
  (execDrw_cases x y n s).elim (fun ⟨_, _⟩ => by omega) fun ⟨_, _, hfault⟩ => hfault

/-- A display instruction writes nothing but V, PC and the display; of these a frame may leave out what keeps its
value. -/
theorem SameExcept.of_display {s : State} {v : Vector Byte 16} {pc : Word} {disp : Display} {changed : List Part}
    (hv : .v ∈ changed ∨ v = s.v) (hpc : .pc ∈ changed) (hdisp : .disp ∈ changed ∨ disp = s.disp) :
    SameExcept changed s { s with v := v, pc := pc, disp := disp } := by
  intro p hp
  cases p with
  | v =>
    obtain rfl := hv.resolve_left hp
    exact fun _ => rfl
  | pc => exact absurd hpc hp
  | disp => exact hdisp.resolve_left hp
  | mem => exact fun _ => rfl
  | rnd => exact ⟨rfl, rfl⟩
  | i | sp | stack | dt | st | keys | run | elapsed | cfg | reports | loadStatus | started | inputs => rfl

/-- After a drawing, VF is the collision flag. -/
theorem State.getV_VF_drawn (s : State) (d : Display) (c : Bool) :
    (State.setFlag { s with disp := d } (flag c)).advance.getV VF = flag c := by simp

/-- A drawing leaves the registers other than VF (R162). -/
theorem State.drawn_regsSameExcept (s : State) (d : Display) (c : Bool) :
    RegsSameExcept [VF] s (State.setFlag { s with disp := d } (flag c)).advance :=
  State.setV_regsSameExcept { s with disp := d } VF (flag c)

/-! ## The statements -/

/-- Settles O28: DRW answers a drawing of the covered pixels, whose collision is the flag in VF. -/
theorem drawXorsSprite : Obligations.DrawXorsSprite := by
  intro s x y n h
  obtain ⟨d, c, hexec, hdrew⟩ := exec_drw_of_inside x y h
  have hflag := s.getV_VF_drawn d c
  refine ⟨_, hexec, hdrew.pixels, fun hhit => ?_, fun hmiss => ?_, rfl, s.drawn_regsSameExcept d c,
    .of_display (.inl (by decide)) (by decide) (.inl (by decide))⟩
  · obtain rfl : c = true := hdrew.collision.2 (.inr hhit)
    exact hflag
  · obtain rfl : c = false := Bool.eq_false_iff.2 fun hc => by
      obtain hraised | ⟨py, px, hcovered, hset⟩ := hdrew.collision.1 hc
      · exact Bool.false_ne_true hraised
      · exact Bool.false_ne_true ((hmiss py px hcovered).symm.trans hset)
    exact hflag

/-- Settles O31: neither VF nor the display is an operand of the sprite, so the second draw flips the same pixels. -/
theorem drawTwiceRestoresDisplay : Obligations.DrawTwiceRestoresDisplay := by
  intro s x y n hx hy h
  obtain ⟨d, c, hfirst, hdrew⟩ := exec_drw_of_inside x y (.inr h)
  obtain ⟨d', c', hsecond, hdrew'⟩ :=
    exec_drw_of_inside (s := (State.setFlag { s with disp := d } (flag c)).advance) x y (.inr h)
  have hregs := s.drawn_regsSameExcept d c
  rw [hregs x (by simpa using hx), hregs y (by simpa using hy)] at hdrew'
  refine ⟨_, _, hfirst, hsecond, hdrew.display_eq_of_twice hdrew', fun py px hcovered hclear => ?_⟩
  obtain rfl : c' = true := hdrew'.collision.2 (.inr ⟨py, px, hcovered, hdrew.pixel_set hcovered hclear⟩)
  exact State.getV_VF_drawn _ d' true

/-- Settles O48: a fault leaves the display, and so does every completed instruction but these two. -/
theorem onlyDisplayInstructionsDraw : Obligations.OnlyDisplayInstructionsDraw := by
  intro i s t h hne
  rcases exec_cases h with ⟨e, addr, rfl⟩ | done
  · exact absurd (s.takeFault_disp e _ addr) hne
  · exact done.disp.resolve_left hne

/-- Settles O27: CLS puts the clear display in place and advances. -/
theorem clearClearsEveryPixel : Obligations.ClearClearsEveryPixel := fun _ =>
  ⟨_, rfl, Display.pixel_clear, rfl, .of_display (.inr rfl) (by decide) (.inl (by decide))⟩

/-- Settles O29: a sprite without bytes covers no pixel. -/
theorem drawEmptySprite : Obligations.DrawEmptySprite := by
  intro s x y
  obtain ⟨d, c, hexec, hdrew⟩ := exec_drw_of_inside (s := s) x y (n := 0) (.inl rfl)
  obtain ⟨rfl, rfl⟩ : d = s.disp ∧ c = false :=
    Prod.mk.inj (hdrew.eq_of_covers_none fun _ _ ⟨j, hj, _⟩ => Nat.not_lt_zero j hj)
  exact ⟨_, hexec, s.getV_VF_drawn _ false, rfl, s.drawn_regsSameExcept _ false,
    .of_display (.inl (by decide)) (by decide) (.inr rfl)⟩

/-- Settles O30: DRW raises its fault with its own word before anything is drawn. -/
theorem drawBeyondMemoryFaults : Obligations.DrawBeyondMemoryFaults := fun s x y n hn h =>
  ⟨_, exec_drw_of_beyond x y hn (by omega), s.takeFault_faulted _ (some (encode (.drw x y n))) _⟩

end Sys2Proof.Machine
end

section
/-! SUPPORT. Timers and the key wait (45_timer_key.md R170 to R174): the frame of a timer write, and the two halves of
Fx0A. -/

namespace Sys2Proof.Machine

/-! ## Frames -/

/-- A timer write changes nothing but DT, ST and PC; of the timers a frame may leave out the one that keeps its
value. -/
theorem SameExcept.of_timers {s : State} {dt st : Byte} {pc : Word} {changed : List Part}
    (hdt : .dt ∈ changed ∨ dt = s.dt) (hst : .st ∈ changed ∨ st = s.st) (hpc : .pc ∈ changed) :
    SameExcept changed s { s with dt := dt, st := st, pc := pc } := by
  intro p hp
  cases p with
  | dt => exact hdt.resolve_left hp
  | st => exact hst.resolve_left hp
  | pc => exact absurd hpc hp
  | v | mem => exact fun _ => rfl
  | rnd => exact ⟨rfl, rfl⟩
  | i | sp | stack | disp | keys | run | elapsed | cfg | reports | loadStatus | started | inputs => rfl

/-- The two halves of Fx0A change nothing but Run, V, the keys, PC and the inputs; of all but Run a frame may leave out
what keeps its value. -/
theorem SameExcept.of_keyWait {s : State} {v : Vector Byte 16} {keys : Vector Bool 16} {pc : Word} {run : Run}
    {inputs : List Input} {changed : List Part} (hrun : .run ∈ changed) (hv : .v ∈ changed ∨ v = s.v)
    (hkeys : .keys ∈ changed ∨ keys = s.keys) (hpc : .pc ∈ changed ∨ pc = s.pc)
    (hinputs : .inputs ∈ changed ∨ inputs = s.inputs) :
    SameExcept changed s { s with v := v, keys := keys, pc := pc, run := run, inputs := inputs } := by
  intro p hp
  cases p with
  | run => exact absurd hrun hp
  | v =>
    obtain rfl := hv.resolve_left hp
    exact fun _ => rfl
  | keys => exact hkeys.resolve_left hp
  | pc => exact hpc.resolve_left hp
  | inputs => exact hinputs.resolve_left hp
  | mem => exact fun _ => rfl
  | rnd => exact ⟨rfl, rfl⟩
  | i | sp | stack | dt | st | disp | elapsed | cfg | reports | loadStatus | started => rfl

/-! ## The completing half of Fx0A (R172) -/

/-- A register read after the key press: Vx holds the key. -/
@[simp] theorem State.completeKeyWait_getV (s : State) (x : Reg) (k : Key) (q : Reg) :
    (s.completeKeyWait x k).getV q = if q = x then BitVec.ofNat 8 k.val else s.getV q :=
  s.getV_setV x q _

/-- A key read after the key press: the press is consumed. -/
@[simp] theorem State.completeKeyWait_keyDown (s : State) (x : Reg) (k q : Key) :
    (s.completeKeyWait x k).keyDown q = if q = k then false else s.keyDown q :=
  s.keyDown_setKey k q false

/-- A key number fits a byte. -/
theorem keyByte_toNat (k : Key) : (BitVec.ofNat 8 k.val : Byte).toNat = k.val :=
  Nat.mod_eq_of_lt (Nat.lt_trans k.isLt (by decide))

/-- A press delivered to a waiting core completes the wait (R172, R221). -/
theorem step_keyPress_of_waiting {s : State} {x : Reg} {k : Key} {rest : List Input} (hw : s.run = .waiting x)
    (hi : s.inputs = .keyEvent k true :: rest) :
    step s = .next (State.completeKeyWait { s with inputs := rest } x k) := by
  rw [step_cons hi]
  simp only [State.deliver, State.keyEvent, hw, if_true]

/-! ## The statements -/

/-- Settles O34: the step is `completeKeyWait`, after which Vx reads as the key and the key as released. -/
theorem keyPressCompletesWait : Obligations.KeyPressCompletesWait := by
  intro s x k rest hw hi
  refine ⟨_, step_keyPress_of_waiting hw hi, ?vx, ?key, rfl, rfl, rfl, ?regs, ?keys,
    .of_keyWait (by decide) (.inl (by decide)) (.inl (by decide)) (.inl (by decide)) (.inl (by decide))⟩
  case vx => rw [State.completeKeyWait_getV, if_pos rfl, keyByte_toNat]
  case key => rw [State.completeKeyWait_keyDown, if_pos rfl]
  case regs => exact s.setV_regsSameExcept x _
  case keys =>
    intro q hq
    rw [State.completeKeyWait_keyDown, if_neg hq]
    rfl

/-- Settles O32: reading DT is a write of Vx; writing a timer is a write of that timer and the default advance. -/
theorem timerTransfers : Obligations.TimerTransfers := by
  intro s x
  refine ⟨exec_writes_register rfl, ⟨_, rfl, rfl, rfl, ?dt⟩, ⟨_, rfl, rfl, rfl, ?st⟩⟩
  case dt => exact .of_timers (.inl (by decide)) (.inr rfl) (by decide)
  case st => exact .of_timers (.inr rfl) (.inl (by decide)) (by decide)

/-- Settles O33: Fx0A writes Run without a look at the keys. -/
theorem keyWaitSuspends : Obligations.KeyWaitSuspends := fun _ _ =>
  ⟨_, rfl, rfl, .of_keyWait (by decide) (.inr rfl) (.inr rfl) (.inr rfl) (.inr rfl)⟩

end Sys2Proof.Machine
end

section
/-! SUPPORT. The index register and memory transfers (46_index_mem.md R180 to R185): the frame they share, the
index as a number, and what each transfer answers and leaves. -/

namespace Sys2Proof.Machine

/-- These instructions write nothing but V, I, PC and memory; of all but PC a frame may leave out what keeps its
value. -/
theorem SameExcept.of_indexMem {s : State} {v : Vector Byte 16} {i : Addr} {pc : Word} {mem : Memory}
    {changed : List Part} (hv : .v ∈ changed ∨ v = s.v) (hi : .i ∈ changed ∨ i = s.i) (hpc : .pc ∈ changed)
    (hmem : .mem ∈ changed ∨ mem = s.mem) :
    SameExcept changed s { s with v := v, i := i, pc := pc, mem := mem } := by
  intro p hp
  cases p with
  | v =>
    obtain rfl := hv.resolve_left hp
    exact fun _ => rfl
  | i => exact hi.resolve_left hp
  | pc => exact absurd hpc hp
  | mem =>
    obtain rfl := hmem.resolve_left hp
    exact fun _ => rfl
  | rnd => exact ⟨rfl, rfl⟩
  | sp | stack | dt | st | disp | keys | run | elapsed | cfg | reports | loadStatus | started | inputs => rfl

/-! ## Stores (R183, R184) -/

/-- A store changes memory and PC alone. -/
theorem State.putBytes_advance_sameExcept (s : State) (a : Nat) (bs : List Byte) :
    SameExcept [.mem, .pc] s (s.putBytes a bs).advance :=
  .of_indexMem (.inr rfl) (.inr rfl) (by decide) (.inl (by decide))

/-- An allowed LD B stores the digits and advances (R183). -/
theorem exec_ldB_of_allowed {s : State} {x : Reg} (h : StoreAllowed s s.i.toNat 3) :
    exec (.ldB x) s = .next (s.putBytes s.i.toNat (decimalDigits (s.getV x))).advance := by
  have hw := State.memWrite_ok (bs := decimalDigits (s.getV x)) h (decimalDigits_ne_nil _)
  simp only [exec, execLdB, hw, State.finishStore, State.done]

/-- The bytes of LD B are the digits: no quotient or remainder is narrowed. -/
theorem decimalDigits_toNat (b : Byte) :
    (decimalDigits b)[0].toNat = b.toNat / 100 ∧ (decimalDigits b)[1].toNat = b.toNat / 10 % 10 ∧
      (decimalDigits b)[2].toNat = b.toNat % 10 := by
  have hb := b.isLt
  exact ⟨Nat.mod_eq_of_lt (by omega), Nat.mod_eq_of_lt (by omega), Nat.mod_eq_of_lt (by omega)⟩

/-- Settles O40: byte j of the store reads back as digit j. -/
theorem storesDecimalDigits : Obligations.StoresDecimalDigits := by
  intro s x hm ha
  have hread {j : Nat} (hj : j < 3) := State.byteAt_putBytes_add (bs := decimalDigits (s.getV x)) hm ha.1 hj
  have houtside := State.putBytes_sameOutside (bs := decimalDigits (s.getV x)) hm ha.1
  obtain ⟨hundreds, tens, ones⟩ := decimalDigits_toNat (s.getV x)
  refine ⟨_, exec_ldB_of_allowed ha, ?hundreds, ?tens, ?ones, houtside, rfl, s.putBytes_advance_sameExcept _ _⟩
  case hundreds => exact (congrArg BitVec.toNat (hread (j := 0) (by decide))).trans hundreds
  case tens => exact (congrArg BitVec.toNat (hread (j := 1) (by decide))).trans tens
  case ones => exact (congrArg BitVec.toNat (hread (j := 2) (by decide))).trans ones

/-- Settles O41: byte r of the store reads back as Vr. -/
theorem storesRegisters : Obligations.StoresRegisters := by
  intro s x hm ha
  have hlen := s.regBlock_length x
  have houtside := State.putBytes_sameOutside hm (bs := s.regBlock x) (hlen ▸ ha.1)
  rw [hlen] at houtside
  exact ⟨_, exec_storeRegs_of_allowed ha, fun r hr => State.byteAt_putBytes_regBlock hm ha hr, houtside, rfl,
    s.putBytes_advance_sameExcept _ _⟩

/-! ## The load (R185) -/

/-- A block inside memory is loaded. -/
theorem exec_loadRegs_of_inside {s : State} {x : Reg} (h : s.i.toNat + x.val ≤ 0xFFF) :
    exec (.loadRegs x) s = .next (s.setRegBlock (s.bytesAt s.i.toNat (x.val + 1))).advance :=
  (execLoadRegs_cases x s).elim And.right fun ⟨_, _⟩ => by omega

/-- A block that leaves memory raises the fault of its last byte (R55). -/
theorem exec_loadRegs_of_beyond {s : State} {x : Reg} (h : 0xFFF < s.i.toNat + x.val) :
    exec (.loadRegs x) s = s.raise .addressOutOfRange (.loadRegs x) (some (s.i.toNat + x.val)) :=
  (execLoadRegs_cases x s).elim (fun ⟨_, _⟩ => by omega) And.right

/-- A register the block reaches takes its byte. -/
theorem State.getV_setRegBlock_bytesAt_of_lt (s : State) (a : Nat) {n : Nat} {r : Reg} (h : r.val < n) :
    (s.setRegBlock (s.bytesAt a n)).getV r = s.byteAt (a + r.val) := by
  have hr : r.val < (s.bytesAt a n).length := by rwa [State.bytesAt_length]
  rw [State.getV_setRegBlock, List.getD_eq_getElem _ _ hr, State.bytesAt_getElem]

/-- A register the block does not reach keeps its value. -/
theorem State.getV_setRegBlock_bytesAt_of_ge (s : State) (a : Nat) {n : Nat} {r : Reg} (h : n ≤ r.val) :
    (s.setRegBlock (s.bytesAt a n)).getV r = s.getV r := by
  rw [State.getV_setRegBlock, List.getD_eq_default _ _ (by rwa [State.bytesAt_length])]

/-- A load changes registers and PC alone. (The unfolding shows the unifier the record update, which it is slow to
find.) -/
theorem State.setRegBlock_advance_sameExcept (s : State) (bs : List Byte) :
    SameExcept [.v, .pc] s (s.setRegBlock bs).advance := by
  unfold State.setRegBlock
  exact .of_alu (by decide) (by decide) (.inr ⟨rfl, rfl⟩)

/-- Settles O43: the block reaches the registers up to Vx, or the load takes its fault. -/
theorem loadsRegisters : Obligations.LoadsRegisters := by
  intro s x
  constructor
  · intro h
    refine ⟨_, exec_loadRegs_of_inside h, fun r hr => ?reached, fun r hr => ?beyond, ?pc,
      s.setRegBlock_advance_sameExcept _⟩
    case reached => rw [State.advance_getV, s.getV_setRegBlock_bytesAt_of_lt _ (Nat.lt_succ_of_le hr)]
    case beyond => rw [State.advance_getV, s.getV_setRegBlock_bytesAt_of_ge _ hr]
    case pc => rw [State.advance_pc, State.setRegBlock_pc]
  · intro h
    exact ⟨_, exec_loadRegs_of_beyond h, s.takeFault_faulted _ (some (encode (.loadRegs x))) _⟩

/-! ## Writes of I (R180 to R182) -/

theorem sumIndex_toNat (i : Addr) (b : Byte) : (sumIndex i b).toNat = (i.toNat + b.toNat) % 0x1000 :=
  BitVec.toNat_ofNat _ _

/-- ADD I under ADDI_VF = none writes I alone (R181; D6). -/
theorem exec_addI_of_none {s : State} (h : s.cfg.addiVf = .none) (x : Reg) :
    exec (.addI x) s = .next (State.advance { s with i := sumIndex s.i (s.getV x) }) := by
  simp only [exec, execAddI, h, State.done]

/-- ADD I under ADDI_VF = overflow writes I, then VF from the operands as they were (R181; D6). -/
theorem exec_addI_of_overflow {s : State} (h : s.cfg.addiVf = .overflow) (x : Reg) :
    exec (.addI x) s = .next (State.setFlag { s with i := sumIndex s.i (s.getV x) }
      (indexOverflowFlag s.i (s.getV x))).advance := by
  simp only [exec, execAddI, h, State.done]

/-- The digit under FONT_DIGIT_POLICY = low_nibble (D7). -/
theorem State.fontDigit_of_lowNibble {s : State} (h : s.cfg.fontDigit = .lowNibble) (x : Reg) :
    s.fontDigit x = (s.getV x).toNat % 16 := by
  rw [State.fontDigit, h]
  rfl

/-- The digit under FONT_DIGIT_POLICY = full (D7). -/
theorem State.fontDigit_of_full {s : State} (h : s.cfg.fontDigit = .full) (x : Reg) :
    s.fontDigit x = (s.getV x).toNat := by
  rw [State.fontDigit, h]

/-- Five times a digit is an address: the largest, 5 * 255, is below 0x1000, so the wrap of R182 never happens. -/
theorem fontAddress_toNat {d : Nat} (h : d < 256) : (BitVec.ofNat 12 (0x000 + 5 * d)).toNat = 5 * d := by
  rw [BitVec.toNat_ofNat, Nat.zero_add, Nat.mod_eq_of_lt (by omega)]

/-- Settles O39: LD I and LD F write I alone; ADD I goes by ADDI_VF. -/
theorem writesIndex : Obligations.WritesIndex := by
  intro s nnn x
  have hframe (i : Addr) : SameExcept [.i, .pc] s (State.advance { s with i := i }) :=
    .of_indexMem (.inr rfl) (.inl (by decide)) (by decide) (.inr rfl)
  refine ⟨⟨_, rfl, rfl, rfl, hframe nnn⟩, ?addI, ⟨_, rfl, fun h => ?lowNibble, fun h => ?full, rfl, hframe _⟩⟩
  case addI =>
    have hsum := sumIndex_toNat s.i (s.getV x)
    cases hvf : s.cfg.addiVf with
    | none =>
      exact ⟨_, exec_addI_of_none hvf x, hsum, rfl, fun _ _ _ => rfl, nofun,
        .of_indexMem (.inr rfl) (.inl (by decide)) (by decide) (.inr rfl)⟩
    | overflow =>
      have hregs := State.setV_regsSameExcept { s with i := sumIndex s.i (s.getV x) } VF
        (indexOverflowFlag s.i (s.getV x))
      have hflag : (State.setFlag { s with i := sumIndex s.i (s.getV x) } (indexOverflowFlag s.i (s.getV x))).getV VF =
          indexOverflowFlag s.i (s.getV x) := by simp
      exact ⟨_, exec_addI_of_overflow hvf x, hsum, rfl, nofun, fun _ => ⟨hregs, hflag.trans (flag_decide _)⟩,
        .of_indexMem (.inl (by decide)) (.inl (by decide)) (by decide) (.inr rfl)⟩
  case lowNibble =>
    have hd := State.fontDigit_of_lowNibble h x
    exact (fontAddress_toNat (by omega)).trans (congrArg (5 * ·) hd)
  case full =>
    have hd := State.fontDigit_of_full h x
    exact (fontAddress_toNat (by omega)).trans (congrArg (5 * ·) hd)

end Sys2Proof.Machine
end

section
/-! SUPPORT. The block's interface (60_exceptions.md R210, R220 to R227; 70_reset_and_hazards.md R240 to R244): the frame
of an input that runs no instruction, and what Init, a load, a key event, a tick, a frame read and the shutdown do. -/

namespace Sys2Proof.Machine

/-! ## Frames -/

/-- Ticks, time, key events and random bytes change nothing but the timers, the elapsed time, the keys, the rnd port and
the inputs; of all but the inputs a frame may leave out what keeps its value. -/
theorem SameExcept.of_ports {s : State} {dt st : Byte} {elapsed : Nat} {keys : Vector Bool 16} {rndIn : List Byte}
    {inputs : List Input} {changed : List Part} (hdt : .dt ∈ changed ∨ dt = s.dt) (hst : .st ∈ changed ∨ st = s.st)
    (helapsed : .elapsed ∈ changed ∨ elapsed = s.elapsed) (hkeys : .keys ∈ changed ∨ keys = s.keys)
    (hrnd : .rnd ∈ changed ∨ rndIn = s.rndIn) (hinputs : .inputs ∈ changed) :
    SameExcept changed s
      { s with dt := dt, st := st, elapsed := elapsed, keys := keys, rndIn := rndIn, inputs := inputs } := by
  intro p hp
  cases p with
  | dt => exact hdt.resolve_left hp
  | st => exact hst.resolve_left hp
  | elapsed => exact helapsed.resolve_left hp
  | keys => exact hkeys.resolve_left hp
  | rnd => exact ⟨hrnd.resolve_left hp, rfl⟩
  | inputs => exact absurd hinputs hp
  | v | mem => exact fun _ => rfl
  | i | pc | sp | stack | disp | run | cfg | reports | loadStatus | started => rfl

/-- A load changes nothing but memory, load_status and the inputs; a frame may leave out memory that keeps its value. -/
theorem SameExcept.of_load {s : State} {mem : Memory} {loadStatus : LoadStatus} {inputs : List Input}
    {changed : List Part} (hmem : .mem ∈ changed ∨ mem = s.mem) (hstatus : .loadStatus ∈ changed)
    (hinputs : .inputs ∈ changed) :
    SameExcept changed s { s with mem := mem, loadStatus := loadStatus, inputs := inputs } := by
  intro p hp
  cases p with
  | mem =>
    obtain rfl := hmem.resolve_left hp
    exact fun _ => rfl
  | loadStatus => exact absurd hstatus hp
  | inputs => exact absurd hinputs hp
  | v => exact fun _ => rfl
  | rnd => exact ⟨rfl, rfl⟩
  | i | pc | sp | stack | dt | st | disp | keys | run | elapsed | cfg | reports | started => rfl

/-! ## Init and load (R240 to R244) -/

/-- Settles O2: the step is Init, and `State.init_atReset` holds of any state. -/
theorem initRestoresResetValues : Obligations.InitRestoresResetValues :=
  fun _ _ hi => ⟨_, step_cons hi, State.init_atReset _⟩

/-- In the boot order, an image that fits is stored from 0x200 (R243). -/
theorem State.loadRom_of_fits {s : State} {rom : List Byte} (hstarted : s.started = false)
    (hstatus : s.loadStatus = .none) (hl : rom.length ≤ 0xDFF) :
    s.loadRom rom = .next { s.putBytes 0x200 rom with loadStatus := .ok } := by
  rcases s.loadRom_cases rom with ⟨-, -, -, e⟩ | ⟨-, -, hlong, -⟩ | ⟨hlate, -⟩
  · exact e
  · omega
  · simp [hstarted, hstatus] at hlate

/-- In the boot order, a longer image only sets load_status (R244). -/
theorem State.loadRom_of_tooLarge {s : State} {rom : List Byte} (hstarted : s.started = false)
    (hstatus : s.loadStatus = .none) (hl : 0xDFF < rom.length) :
    s.loadRom rom = .next { s with loadStatus := .romTooLarge } := by
  rcases s.loadRom_cases rom with ⟨-, -, hshort, -⟩ | ⟨-, -, -, e⟩ | ⟨hlate, -⟩
  · omega
  · exact e
  · simp [hstarted, hstatus] at hlate

/-- With no input left, a running core whose ROM load failed is stuck (R244). -/
theorem step_nil_of_loadFailed {s : State} (hi : s.inputs = []) (hrun : s.run = .running)
    (hstatus : s.loadStatus = .romTooLarge) : step s = .fault .loadFailed := by
  rw [step_nil hi]
  simp only [State.runFree, hrun, hstatus, if_true]

/-- Settles O3: an image that fits is an allowed store, so its bytes read back and no other byte changes. -/
theorem loadRomWritesImage : Obligations.LoadRomWritesImage := by
  intro s rom rest hm hi hstarted hstatus hl
  have hrange : 0x200 + rom.length ≤ 4096 := by omega
  have hload : step s = .next { ({ s with inputs := rest } : State).putBytes 0x200 rom with loadStatus := .ok } :=
    (step_cons hi).trans (State.loadRom_of_fits (s := { s with inputs := rest }) hstarted hstatus hl)
  exact ⟨_, hload, fun _ hj => State.byteAt_putBytes_add hm hrange hj, State.putBytes_sameOutside hm hrange, rfl, rfl,
    .of_load (.inl (by decide)) (by decide) (by decide)⟩

/-- Settles O4: load_status romTooLarge is what keeps every later clock from running a cycle. -/
theorem loadRomTooLargeStartsNothing : Obligations.LoadRomTooLargeStartsNothing := by
  intro s rom rest hi hstarted hstatus hl
  have hload : step s = .next { s with inputs := rest, loadStatus := .romTooLarge } :=
    (step_cons hi).trans (State.loadRom_of_tooLarge (s := { s with inputs := rest }) hstarted hstatus hl)
  refine ⟨_, hload, rfl, rfl, .of_load (.inr rfl) (by decide) (by decide), fun more => ?_, fun hrun => ?_⟩
  · exact step_cpuClock_of_not_canCycle (fun hc => absurd rfl hc.2) rfl
  · exact step_nil_of_loadFailed rfl hrun rfl

/-! ## Key events (R221) -/

/-- A key event that ends no wait, of a core that is not halted, sets its key (R221). -/
theorem State.keyEvent_eq_setKey {s : State} {k : Key} {p : Bool}
    (h : s.run = .running ∨ (p = false ∧ ∃ x, s.run = .waiting x)) : s.keyEvent k p = s.setKey k p := by
  rcases h with hrun | ⟨rfl, x, hwait⟩
  · simp only [State.keyEvent, hrun]
  · simp [State.keyEvent, hwait]

/-- Settles O35: the step is `setKey`, after which key k reads as p and every other key as before. -/
theorem keyEventSetsKey : Obligations.KeyEventSetsKey := by
  intro s k p rest hi h
  have hstep : step s = .next (State.setKey { s with inputs := rest } k p) :=
    (step_cons hi).trans (congrArg Host.Outcome.next (State.keyEvent_eq_setKey (s := { s with inputs := rest }) h))
  refine ⟨_, hstep, ?key, fun q hq => ?others, rfl,
    .of_ports (.inr rfl) (.inr rfl) (.inr rfl) (.inl (by decide)) (.inr rfl) (by decide)⟩
  case key => rw [State.keyDown_setKey, if_pos rfl]
  case others =>
    rw [State.keyDown_setKey, if_neg hq]
    rfl

/-! ## Ticks (R210) -/

/-- A core is not halted in the terms of the statements and of `State.isHalted`. -/
theorem State.isHalted_eq_false_iff {s : State} : s.isHalted = false ↔ ∀ e pc w, s.run ≠ .halted e pc w := by
  cases hrun : s.run <;> simp [State.isHalted, hrun]

/-- A core that holds a fault is halted. -/
theorem State.isHalted_of_run {s : State} {e : FatalFault} {pc : Word} {w : Option Word}
    (h : s.run = .halted e pc w) : s.isHalted = true := by
  simp only [State.isHalted, h]

/-- The timer clock stands while the core is halted (R203, R210). -/
theorem State.tick_of_halted {s : State} (h : s.isHalted = true) : s.tick = s := if_pos h

/-- A tick of a core that is not halted counts both timers down (R210). -/
theorem State.tick_of_not_halted {s : State} (h : s.isHalted = false) :
    s.tick = { s with dt := decrement s.dt, st := decrement s.st } := if_neg (by simp [h])

/-- Settles O36: each timer is decremented, which stops at 0, and a halted core does not tick. -/
theorem tickCountsTimersDown : Obligations.TickCountsTimersDown := by
  intro s rest hi
  have hstep : step s = .next (State.tick { s with inputs := rest }) := step_cons hi
  constructor
  · intro hrun
    rw [State.tick_of_not_halted (s := { s with inputs := rest }) (State.isHalted_eq_false_iff.mpr hrun)] at hstep
    exact ⟨_, hstep, decrement_toNat _, decrement_toNat _, rfl,
      .of_ports (.inl (by decide)) (.inl (by decide)) (.inr rfl) (.inr rfl) (.inr rfl) (by decide)⟩
  · intro e pc w hrun
    rwa [State.tick_of_halted (s := { s with inputs := rest }) (State.isHalted_of_run hrun)] at hstep

/-! ## Outputs and shutdown (R222, R223, R227) -/

/-- Settles O60: each input is delivered as it stands. -/
theorem outputsAndShutdown : Obligations.OutputsAndShutdown :=
  fun _ _ => ⟨rfl, decide_eq_true_iff, step_cons, step_cons⟩

end Sys2Proof.Machine
end

section
/-! SUPPORT. Faults, waits and stops (60_exceptions.md R200 to R214; 40_cycle.md R101): what a halted core holds, what
moves a core that does not run, and when a step stops. -/

namespace Sys2Proof.Machine

/-! ## Halting (R203, R205) -/

/-- An instruction that completes halts no core. -/
theorem Completed.isHalted {i : Instr} {s t : State} (done : Completed i s t) (h : s.isHalted = false) :
    t.isHalted = false := by
  rcases done.run with hsame | ⟨x, -, rfl⟩
  · rw [State.isHalted, hsame]
    exact h
  · rfl

/-- Of a core that is not halted nothing is asked. -/
theorem HaltReported.of_not_halted {s : State} (h : s.isHalted = false) : HaltReported s :=
  fun e pc w hrun => absurd hrun (State.isHalted_eq_false_iff.mp h e pc w)

/-- A taken fault is held with its PC and sent as the last report (R203). -/
theorem HaltReported.takeFault (s : State) (e : FatalFault) (w : Option Word) (a : Option Nat) :
    HaltReported (s.takeFault e w a) := by
  intro e' pc w' hrun
  cases hrun
  exact ⟨rfl, a, by simp⟩

/-- A core that can run a cycle is not halted. -/
theorem CanCycle.isHalted {s : State} (hc : CanCycle s) : s.isHalted = false := by
  obtain ⟨hrun, -⟩ := hc
  simp only [State.isHalted, hrun]

/-- Every kind of step keeps the fault of a halted core: the cycle of a running core takes one or does not halt it, and
Init and a key press leave the core running. -/
theorem HaltReported.of_stepped {s t : State} (h : HaltReported s) (hs : Stepped s t) : HaltReported t := by
  cases hs with
  | fetchFault | instrFault => exact .takeFault _ _ _ _
  | completed rest i t hc _ done => exact .of_not_halted (done.isHalted hc.isHalted)
  | unknown rest w hc => exact .of_not_halted hc.isHalted
  | init | keyWait => exact .of_not_halted rfl
  | timers | loaded | tooLarge | key | rnd => exact h

/-- Settles O55, by the kinds of step of `step_inversion`. -/
theorem stepKeepsHaltReported : Obligations.StepKeepsHaltReported :=
  fun _ _ h hstep => h.of_stepped (step_inversion hstep)

/-- Settles O46: the instruction took a fault of its own, since one that completes halts no core. -/
theorem faultsArePrecise : Obligations.FaultsArePrecise := by
  intro i s t e pc w hs h ht
  rcases exec_cases h with ⟨e', addr, rfl⟩ | done
  · cases ht
    exact ⟨rfl, rfl, addr, s.takeFault_faulted e _ addr⟩
  · have hrunning := done.isHalted (State.isHalted_eq_false_iff.mpr hs)
    exact absurd ht (State.isHalted_eq_false_iff.mp hrunning e pc w)

/-! ## A core that does not run (R101, R214, R246) -/

/-- Everything that moves a started core that does not run: Init, the key press a wait ends with, or an input that
changes the timers, the keys and the model's input fields alone, and on a halted core the last of these alone. -/
theorem Stepped.cases_of_not_running {s t : State} (hs : Stepped s t) (hrun : s.run ≠ .running)
    (hstarted : s.started = true) :
    (∃ rest, s.inputs = .init :: rest) ∨
    ((∃ k rest, s.inputs = .keyEvent k true :: rest) ∧ s.isHalted = false) ∨
    SameExcept [.dt, .st, .keys, .elapsed, .inputs, .rnd] s t ∧
      (s.isHalted = true → SameExcept [.inputs, .rnd] s t) := by
  have hcycle : ¬ CanCycle s := fun hc => hrun hc.1
  have hboot : ¬ s.started = false := by simp [hstarted]
  cases hs with
  | fetchFault _ hc | instrFault _ _ _ _ hc | completed _ _ _ hc | unknown _ _ hc => exact absurd hc hcycle
  | loaded _ _ hfirst | tooLarge _ hfirst => exact absurd hfirst hboot
  | init rest hi => exact .inl ⟨rest, hi⟩
  | keyWait rest k x hi hw => exact .inr (.inl ⟨⟨k, rest, hi⟩, by simp only [State.isHalted, hw]⟩)
  | timers rest dt st e halted =>
    refine .inr (.inr ⟨?_, fun hh => ?_⟩)
    · exact .of_ports (.inl (by decide)) (.inl (by decide)) (.inl (by decide)) (.inr rfl) (.inr rfl) (by decide)
    · obtain ⟨hdt, hst, he⟩ := halted hh
      exact .of_ports (.inr hdt) (.inr hst) (.inr he) (.inr rfl) (.inr rfl) (by decide)
  | key rest k p hh =>
    refine .inr (.inr ⟨?_, fun h => nomatch hh.symm.trans h⟩)
    exact .of_ports (.inr rfl) (.inr rfl) (.inr rfl) (.inl (by decide)) (.inr rfl) (by decide)
  | rnd rest b =>
    refine .inr (.inr ⟨?_, fun _ => ?_⟩) <;>
      exact .of_ports (.inr rfl) (.inr rfl) (.inr rfl) (.inr rfl) (.inl (by decide)) (by decide)

/-- Settles O58: a waiting core does not run and has started. -/
theorem waitEndsOnlyByKeyPress : Obligations.WaitEndsOnlyByKeyPress := by
  intro s t x hw hstart hstep
  have hrun : s.run ≠ .running := by simp [hw]
  rcases (step_inversion hstep).cases_of_not_running hrun (hstart hrun) with hinit | ⟨hkey, -⟩ | ⟨hsame, -⟩
  · exact .inl hinit
  · exact .inr (.inl hkey)
  · exact .inr (.inr hsame)

/-- Settles O59: a halted core does not run, has started, and waits for no key press. -/
theorem haltedIsFinal : Obligations.HaltedIsFinal := by
  intro s t e pc w hhalt hstart hstep
  have hrun : s.run ≠ .running := by simp [hhalt]
  have hh : s.isHalted = true := State.isHalted_of_run hhalt
  rcases (step_inversion hstep).cases_of_not_running hrun (hstart hrun) with hinit | ⟨-, hn⟩ | ⟨-, hsame⟩
  · exact .inl hinit
  · exact nomatch hn.symm.trans hh
  · exact .inr (hsame hh)

/-! ## Where a step stops -/

/-- A cycle answers a next state: the fetch fault is one, and no instruction stops. -/
theorem State.runCycle_answers_next (s : State) : ∃ t, s.runCycle = .next t := by
  rcases s.runCycle_cases with ⟨-, e⟩ | ⟨-, i, -, e⟩ | ⟨-, w, -, e⟩
  · exact ⟨_, e⟩
  · exact e ▸ everyInstructionAnswersNext i s
  · exact ⟨_, e⟩

/-- The CPU clock answers a next state. -/
theorem State.clockCpu_answers_next (s : State) : ∃ t, s.clockCpu = .next t := by
  rcases s.clockCpu_cases with ⟨-, e⟩ | ⟨-, e⟩
  · exact e ▸ s.beginCycle.runCycle_answers_next
  · exact ⟨_, e⟩

/-- With no input left a waiting core is stuck (IMP8). -/
theorem step_nil_of_waiting {s : State} {x : Reg} (hi : s.inputs = []) (hrun : s.run = .waiting x) :
    step s = .fault .stuckWaiting := by
  rw [step_nil hi]
  simp only [State.runFree, hrun]

/-- With no input left a halted core is stuck (IMP15). -/
theorem step_nil_of_halted {s : State} {e : FatalFault} {pc : Word} {w : Option Word} (hi : s.inputs = [])
    (hrun : s.run = .halted e pc w) : step s = .fault .stuckHalted := by
  rw [step_nil hi]
  simp only [State.runFree, hrun]

/-- Settles O14: with no input left by Run and load_status, and else by the input, of which only a load and the
shutdown can stop the step. -/
theorem stepStopsAsListed : Obligations.StepStopsAsListed := by
  intro s
  cases hi : s.inputs with
  | nil =>
    cases hrun : s.run with
    | waiting x => exact .inr (.inl ⟨rfl, ⟨x, rfl⟩, step_nil_of_waiting hi hrun⟩)
    | halted e pc w => exact .inr (.inr (.inl ⟨rfl, ⟨e, pc, w, rfl⟩, step_nil_of_halted hi hrun⟩))
    | running =>
      by_cases hstatus : s.loadStatus = .romTooLarge
      · exact .inr (.inr (.inr (.inl ⟨rfl, rfl, hstatus, step_nil_of_loadFailed hi hrun hstatus⟩)))
      · exact .inl (step_nil_of_canCycle hi ⟨hrun, hstatus⟩ ▸ s.beginCycle.runCycle_answers_next)
  | cons input rest =>
    have hstep := step_cons hi
    cases input with
    | shutdown => exact .inr (.inr (.inr (.inr (.inl ⟨rest, rfl, hstep⟩))))
    | load rom =>
      rcases State.loadRom_cases { s with inputs := rest } rom with ⟨-, -, -, e⟩ | ⟨-, -, -, e⟩ | ⟨hlate, e⟩
      · exact .inl ⟨_, hstep.trans e⟩
      · exact .inl ⟨_, hstep.trans e⟩
      · exact .inr (.inr (.inr (.inr (.inr ⟨rom, rest, rfl, hlate, hstep.trans e⟩))))
    | cpuClock =>
      obtain ⟨t, e⟩ := State.clockCpu_answers_next { s with inputs := rest }
      exact .inl ⟨t, hstep.trans e⟩
    | init | timerClock | keyEvent | rnd | frame | elapse | cpuPeriod => exact .inl ⟨_, hstep⟩

end Sys2Proof.Machine
end

section
/-! SUPPORT. Runs of the timer clock (60_exceptions.md R210) and of the timed refinement (R212, R213). -/

namespace Sys2Proof.Machine

/-! ## Runs -/

/-- A run goes on from the state its first step answers. -/
theorem run_succ_of_step {s t : State} (h : step s = .next t) (n : Nat) :
    (core.run (n + 1) s : Host.Outcome State Fault Refusal) = core.run n t := by
  have hcore : core.step s = .next t := h
  simp only [Host.Core.run, hcore]

/-- A part that is the same along two steps is the same along both. -/
theorem Part.same_trans {s t u : State} {p : Part} (hst : p.same s t) (htu : p.same t u) : p.same s u := by
  cases p with
  | v | mem => exact fun q => (htu q).trans (hst q)
  | rnd => exact ⟨htu.1.trans hst.1, htu.2.trans hst.2⟩
  | i | pc | sp | stack | dt | st | disp | keys | run | elapsed | cfg | reports | loadStatus | started | inputs =>
    exact Eq.trans htu hst

/-- What two steps both leave unchanged, both together leave unchanged. -/
theorem SameExcept.trans {s t u : State} {changed : List Part} (hst : SameExcept changed s t)
    (htu : SameExcept changed t u) : SameExcept changed s u :=
  fun p hp => Part.same_trans (hst p hp) (htu p hp)

/-- A state is its own frame. -/
theorem SameExcept.refl (changed : List Part) (s : State) : SameExcept changed s s := by
  intro p _
  cases p with
  | v | mem => exact fun _ => rfl
  | rnd => exact ⟨rfl, rfl⟩
  | i | pc | sp | stack | dt | st | disp | keys | run | elapsed | cfg | reports | loadStatus | started | inputs => rfl

/-! ## Ticks -/

/-- Settles O37, by induction on the ticks: the first takes 1, and leaves a core that is not halted. -/
theorem ticksStopAtZero : Obligations.TicksStopAtZero := by
  intro n
  induction n with
  | zero => exact fun s rest hi _ => ⟨s, rfl, rfl, rfl, hi, .refl _ s⟩
  | succ n ih =>
    intro s rest hi hrun
    obtain ⟨htick, -⟩ := tickCountsTimersDown s _ hi
    obtain ⟨u, hstep, hdt, hst, hinputs, hsame⟩ := htick hrun
    have hsameRun : u.run = s.run := hsame .run (by decide)
    obtain ⟨t, hruns, hdt', hst', hrest, hsame'⟩ := ih u rest hinputs (hsameRun ▸ hrun)
    exact ⟨t, (run_succ_of_step hstep n).trans hruns, by omega, by omega, hrest, hsame.trans hsame'⟩

/-! ## Wall-clock time -/

/-- The length of a tick is a parameter (R6). -/
theorem State.unitsPerTick_congr {s t : State} (hcfg : t.cfg = s.cfg) : t.unitsPerTick = s.unitsPerTick := by
  simp only [State.unitsPerTick, hcfg]

/-- Whole ticks of `a` units, and of what was left of them with `b` more, are the whole ticks of all of them. -/
theorem div_add_mod_add_div {u : Nat} (hu : 0 < u) (a b : Nat) : a / u + (a % u + b) / u = (a + b) / u := by
  calc a / u + (a % u + b) / u = (u * (a / u) + (a % u + b)) / u := (Nat.mul_add_div hu _ _).symm
    _ = (a + b) / u := by rw [← Nat.add_assoc, Nat.div_add_mod]

/-- `t` is `s` after `d` units of wall-clock time: the timers have fallen by the whole ticks in the time since the last
one, and the rest of it is the elapsed time (R212). -/
def TimePassed (d : Nat) (s t : State) : Prop :=
  t.dt.toNat = s.dt.toNat - (s.elapsed + d) / s.unitsPerTick ∧
  t.st.toNat = s.st.toNat - (s.elapsed + d) / s.unitsPerTick ∧
  t.elapsed = (s.elapsed + d) % s.unitsPerTick

/-- With no time the timers stand, if no tick is overdue. -/
theorem TimePassed.zero {s : State} (h : s.elapsed < s.unitsPerTick) : TimePassed 0 s s := by
  simp [TimePassed, Nat.div_eq_of_lt h, Nat.mod_eq_of_lt h]

/-- Time may be cut into pieces. -/
theorem TimePassed.trans {d d' : Nat} {s t u : State} (hcfg : t.cfg = s.cfg) (hst : TimePassed d s t)
    (htu : TimePassed d' t u) : TimePassed (d + d') s u := by
  have hunits := State.unitsPerTick_congr hcfg
  obtain ⟨hdt, hsound, helapsed⟩ := hst
  obtain ⟨hdt', hsound', helapsed'⟩ := htu
  rw [hunits, helapsed] at hdt' hsound' helapsed'
  have hticks := div_add_mod_add_div s.unitsPerTick_pos (s.elapsed + d) d'
  rw [Nat.mod_add_mod] at helapsed'
  rw [TimePassed, ← Nat.add_assoc, ← hticks, ← Nat.sub_sub, ← Nat.sub_sub, ← hdt, ← hsound]
  exact ⟨hdt', hsound', helapsed'⟩

/-- After time has passed no tick is overdue. -/
theorem TimePassed.elapsed_lt {d : Nat} {s t : State} (hcfg : t.cfg = s.cfg) (h : TimePassed d s t) :
    t.elapsed < t.unitsPerTick := by
  obtain ⟨-, -, helapsed⟩ := h
  rw [helapsed, State.unitsPerTick_congr hcfg]
  exact Nat.mod_lt _ s.unitsPerTick_pos

/-- A step that takes an input by which d units pass, of a core that is not halted, lets them pass and leaves the
parameters and Run (R212). -/
theorem step_timePassed {s : State} {input : Input} {rest : List Input} {d : Nat} (hs : s.isHalted = false)
    (hi : s.inputs = input :: rest)
    (hinput : State.deliver { s with inputs := rest } input = .next (State.elapse { s with inputs := rest } d)) :
    ∃ t, step s = .next t ∧ TimePassed d s t ∧ t.cfg = s.cfg ∧ t.isHalted = false ∧ t.inputs = rest := by
  have hpassed : TimePassed d s (State.elapse { s with inputs := rest } d) :=
    State.elapse_toNat (s := { s with inputs := rest }) hs d
  obtain ⟨dt, st, e, h⟩ := State.elapse_eq { s with inputs := rest } d
  rw [h] at hinput hpassed
  exact ⟨_, (step_cons hi).trans hinput, hpassed, rfl, hs, rfl⟩

/-- A run over inputs `f d` by which d units pass, of a core that is not halted, lets their sum pass: by induction on
the pieces. -/
theorem run_timePassed {f : Nat → Input} {ds : List Nat} {s : State} {rest : List Input}
    (hf : ∀ d ∈ ds, ∀ u : State, u.cfg = s.cfg → u.deliver (f d) = .next (u.elapse d))
    (hs : s.isHalted = false) (helapsed : s.elapsed < s.unitsPerTick) (hi : s.inputs = ds.map f ++ rest) :
    ∃ t, (core.run ds.length s : Host.Outcome State Fault Refusal) = .next t ∧ TimePassed ds.sum s t := by
  induction ds generalizing s with
  | nil => exact ⟨s, rfl, .zero helapsed⟩
  | cons d ds ih =>
    obtain ⟨u, hstep, hpassed, hcfg, hu, hinputs⟩ := step_timePassed hs hi (hf d List.mem_cons_self _ rfl)
    obtain ⟨t, hruns, hpassed'⟩ := ih (fun d' hd' v hv => hf d' (List.mem_cons_of_mem _ hd') v (hv.trans hcfg))
      hu (hpassed.elapsed_lt hcfg) hinputs
    refine ⟨t, (run_succ_of_step hstep ds.length).trans hruns, ?_⟩
    rw [List.sum_cons]
    exact hpassed.trans hcfg hpassed'

/-- Settles O38: pieces of any length, and n pieces of one CPU period, which is 60 * den units of which num are a
tick. -/
theorem ticksAreFloorOfTime : Obligations.TicksAreFloorOfTime := by
  intro s rest hzero hrun
  have hs : s.isHalted = false := State.isHalted_eq_false_iff.mpr hrun
  have helapsed : s.elapsed < s.unitsPerTick := hzero ▸ s.unitsPerTick_pos
  constructor
  · intro ds hi
    obtain ⟨t, hruns, hpassed⟩ := run_timePassed (fun _ _ _ _ => rfl) hs helapsed hi
    simp only [TimePassed, hzero, Nat.zero_add] at hpassed
    exact ⟨t, hruns, hpassed⟩
  · intro n hi
    have hperiod : ∀ d ∈ List.replicate n s.unitsPerCycle, ∀ u : State, u.cfg = s.cfg →
        u.deliver .cpuPeriod = .next (u.elapse d) := by
      intro d hd u hu
      rw [List.eq_of_mem_replicate hd, State.unitsPerCycle, ← hu]
      rfl
    have hsum : (List.replicate n s.unitsPerCycle).sum = 60 * n * s.cfg.cpuHz.den := by
      rw [List.sum_replicate, smul_eq_mul, State.unitsPerCycle]
      ring
    obtain ⟨t, hruns, hpassed⟩ := run_timePassed (f := fun _ => .cpuPeriod) hperiod hs helapsed
      (hi.trans (by rw [List.map_replicate]))
    simp only [TimePassed, hzero, Nat.zero_add, hsum] at hpassed
    rw [List.length_replicate] at hruns
    exact ⟨t, hruns, hpassed⟩

end Sys2Proof.Machine
end
